-- ==== Sys2Proof/Word.lean ====
section
/-! DEFINITION. The value types of the AES core: octets, 32-bit words and octet sequences of
a known length (rules R12, R14, R61). Everything computed from them stands in Sys2Proof/Machine. -/

namespace Sys2Proof

/-- An octet: 8 bits, unsigned (R12). -/
abbrev Byte := BitVec 8

/-- A word: 32 bits, unsigned, bit 0 the least significant (R12, R14). -/
abbrev Word := BitVec 32

/-- A sequence of exactly `n` octets, lowest address first (R64, R67). Used for values inside a command only: no
field of the state has this type. -/
abbrev Octets (n : Nat) := Fin n → Byte

end Sys2Proof
end

