-- ==== Sys2Proof/Syntax.lean ====
section
/-! DEFINITION. The syntax: the five commands (R90, spec/opcode_table.json), one constructor each, and the record in
which a host issues one (R91). A host buffer address is an unsigned integer to which the engine only adds small offsets,
without wrapping (R61, R63), so an address is a `Nat` and its `ADDR_W` bits are a bound, not a type. -/

namespace Sys2Proof

/-- A command with the operands its format gives it (R91, R92). Operands that a format marks absent have no component
here (R99, U17). -/
inductive Instr where
  /-- `SETKEY @key_addr, #klen` (K format, R180): every value of `klen` is a legal encoding (R99) -/
  | setkey (klen : BitVec 8) (keyAddr : Nat)
  /-- `ENCRYPT @in_addr, @out_addr` (B format, R200) -/
  | encrypt (inAddr outAddr : Nat)
  /-- `DECRYPT @in_addr, @out_addr` (B format, R215) -/
  | decrypt (inAddr outAddr : Nat)
  /-- `KEYLEN` (Q format, R230) -/
  | keylen
  /-- `BLKLEN` (Q format, R231) -/
  | blklen
  deriving DecidableEq, Repr

/-- The command record `(cw, op0, op1)` of R91. The port carries both address operands for every command; a format
that has no use for one ignores it (R99). -/
structure Command where
  cw : BitVec 32
  op0 : Nat
  op1 : Nat
  deriving DecidableEq, Repr

end Sys2Proof
end

