-- ==== Sys2Proof/Decode.lean ====
section
/-! DEFINITION. The decoder (R101), total on every command word, refusing by name; after it the encoder, written from
the same map (R91, R97), and the opcode map itself as data. Every bit position here is the spec's own choice
(decision D2). -/

namespace Sys2Proof

/-- Why a command word is illegal (R98). The engine answers `IllegalCommand` to either. -/
inductive DecodeError where
  /-- the opcode `cw[31:28]` is 0x0 or 0x6 to 0xF -/
  | reservedOpcode
  /-- the opcode is defined and a must-be-zero bit of its format is set -/
  | mustBeZero
  deriving DecidableEq, Repr

/-- `opcode = cw[31:28]` (R92). -/
def Command.opcode (c : Command) : BitVec 4 := c.cw.extractLsb' 28 4

/-- `rsvd = cw[27:8]`, must be zero in the K format (R92). -/
def Command.rsvd (c : Command) : BitVec 20 := c.cw.extractLsb' 8 20

/-- `rsvd2 = cw[27:0]`, must be zero in the B and Q formats (R92). -/
def Command.rsvd2 (c : Command) : BitVec 28 := c.cw.extractLsb' 0 28

/-- `klen = cw[7:0]` (R92, R93). -/
def Command.klen (c : Command) : BitVec 8 := c.cw.extractLsb' 0 8

/-- The decoded command, if the must-be-zero field of its format is zero (R98). -/
def requireZero {n : Nat} (field : BitVec n) (i : Instr) : Except DecodeError Instr :=
  if field = 0 then .ok i else .error .mustBeZero

/-- The decoder of R101. It reads no state. -/
def decode (c : Command) : Except DecodeError Instr :=
  if c.opcode = 0x1 then requireZero c.rsvd (.setkey c.klen c.op0)
  else if c.opcode = 0x2 then requireZero c.rsvd2 (.encrypt c.op0 c.op1)
  else if c.opcode = 0x3 then requireZero c.rsvd2 (.decrypt c.op0 c.op1)
  else if c.opcode = 0x4 then requireZero c.rsvd2 .keylen
  else if c.opcode = 0x5 then requireZero c.rsvd2 .blklen
  else .error .reservedOpcode

/-- The encoder (R91, R97). An operand that the format marks absent is sent as 0. -/
def encode : Instr → Command
  | .setkey klen keyAddr => { cw := 0x10000000 ||| klen.zeroExtend 32, op0 := keyAddr, op1 := 0 }
  | .encrypt inAddr outAddr => { cw := 0x20000000, op0 := inAddr, op1 := outAddr }
  | .decrypt inAddr outAddr => { cw := 0x30000000, op0 := inAddr, op1 := outAddr }
  | .keylen => { cw := 0x40000000, op0 := 0, op1 := 0 }
  | .blklen => { cw := 0x50000000, op0 := 0, op1 := 0 }

/-- One row of the opcode map of R97. -/
structure OpcodeRow where
  mnemonic : String
  matchBits : BitVec 32
  mask : BitVec 32
  deriving DecidableEq, Repr

/-- A command word selects the row when `(cw & mask) == match` (R97). -/
def OpcodeRow.selects (r : OpcodeRow) (cw : BitVec 32) : Bool := cw &&& r.mask == r.matchBits

/-- The opcode map of R97, row by row. -/
def opcodeMap : List OpcodeRow :=
  [{ mnemonic := "SETKEY", matchBits := 0x10000000, mask := 0xFFFFFF00 },
   { mnemonic := "ENCRYPT", matchBits := 0x20000000, mask := 0xFFFFFFFF },
   { mnemonic := "DECRYPT", matchBits := 0x30000000, mask := 0xFFFFFFFF },
   { mnemonic := "KEYLEN", matchBits := 0x40000000, mask := 0xFFFFFFFF },
   { mnemonic := "BLKLEN", matchBits := 0x50000000, mask := 0xFFFFFFFF }]

/-- The mnemonic a command has in the opcode map (R90, R102). -/
def Instr.mnemonic : Instr → String
  | .setkey _ _ => "SETKEY"
  | .encrypt _ _ => "ENCRYPT"
  | .decrypt _ _ => "DECRYPT"
  | .keylen => "KEYLEN"
  | .blklen => "BLKLEN"

/-- The command record made of an instruction's bits as spec/opcode_table.json numbers them: the command word in bits
31..0, then `op0` and `op1`, 32 bits each (the width of the spec's examples); bits at and above `nbits` are 0. -/
def commandOfBits (nbits w : Nat) : Command :=
  let b := w % 2 ^ nbits
  { cw := BitVec.ofNat 32 b, op0 := b / 2 ^ 32 % 2 ^ 32, op1 := b / 2 ^ 64 % 2 ^ 32 }

/-- What the decoder reads from an instruction's bits as the opcode table numbers them; none where it refuses. -/
def decodeTableWord (nbits w : Nat) : Option Instr :=
  match decode (commandOfBits nbits w) with
  | .ok i => some i
  | .error _ => none

end Sys2Proof
end

