-- ==== Sys2Proof/Config.lean ====
section
/-! DEFINITION. What an installation of the block fixes (R13 and the table of open parameters at the end of
spec/92_eei_decisions.md), and the free values: constants without a body, standing for what the spec leaves
unspecified. Nothing can be proved about a free value, so a claim that meets one holds whatever it is. -/

namespace Sys2Proof

/-- `SETKEY_FAIL_POLICY` (R13, R189): what a failed SETKEY does to an instance that is already keyed. -/
inductive FailPolicy where
  /-- the old key is lost: the instance becomes unkeyed -/
  | invalidate
  /-- the engine state is unchanged -/
  | preserve
  deriving DecidableEq, Repr

/-- The parameters the spec leaves OPEN and a model takes as arguments. `N_INSTANCES` is the length of
`State.engines`. `KLEN_W = 8`, `BACKEND = software` and `TABLE_STORAGE = ROM` are fixed by the spec and are built in. -/
structure Params where
  /-- `ADDR_W`: the width in bits of a host buffer address (R13, R61) -/
  addrW : Nat
  /-- `SETKEY_FAIL_POLICY` (R13, R189) -/
  setkeyFailPolicy : FailPolicy
  deriving DecidableEq, Repr

/-- The values the spec's own examples use for the open parameters (R13: `ADDR_W` 32, policy `invalidate`).
DESIGN CHOICE (log 2): only `State.reset` uses them; every claim is about all values. -/
def Params.default : Params := { addrW := 32, setkeyFailPolicy := .invalidate }

/-- FREE VALUE. The octets that a command reads from a buffer which another agent touched while the command was in
flight (R288; U6: any value for every octet so read), one for each index. Log 8. -/
opaque Config.freeOctet : Nat → Byte

/-- FREE VALUE. What a working register `s`, `t` or `temp` holds after a command used it (R30, R31, R32: unspecified
between commands), one for each index. Log 5. -/
opaque Config.freeWord : Nat → Word

/-- FREE VALUE. What a working register `s`, `t` or `temp` holds after the reset of an instance and before any command
used it (R50: no value, and never zero), one for each index. Log 4. -/
opaque Config.resetWord : Nat → Word

/-- FREE VALUE. What a read of a schedule word that holds no value would give (R35, R50: never zero; U7: no rule reads
one). Log 6. -/
opaque Config.absentWord : Nat → Word

/-- FREE VALUE. The 16-octet staging value `out` of ENCRYPT and DECRYPT before the four StoreWords fill it (R161). Log 7. -/
opaque Config.emptyStaging : Fin 16 → Byte

/-- How far one command that used free values moves the counter `State.freeIdx` on: more than any command uses. -/
def Config.freeStride : Nat := 32

end Sys2Proof
end

