-- ==== Sys2Proof/Machine/State.lean ====
section
/-! DEFINITION. The state of the machine, as plain data: the engine instances with everything R33 to R38, R30 to R32
give each, host buffer memory (R60, R61), the command port with the commands in flight (R81, R82), the host's pending
actions, and the launch record of responses (R39, R296). The constant tables are not state (R42). -/

namespace Sys2Proof.Machine

/-- Four column words: `s[0..3]` or `t[0..3]` (R30, R31), column `c` in field `c<c>`. -/
structure Columns where
  c0 : Word
  c1 : Word
  c2 : Word
  c3 : Word
  deriving DecidableEq, Repr

/-- `variant` (R34): three values; the encoding 3 does not exist (U14). -/
inductive Variant where
  | aes128
  | aes192
  | aes256
  deriving DecidableEq, Repr

/-- `backend` (R37). The instances of this spec hold `software`, and no command reads it. -/
inductive Backend where
  | software
  | hardware
  deriving DecidableEq, Repr

/-- What a keyed instance holds (R33): the variant and its two schedules, each a list of exactly the words that hold
a value (decision D23). -/
structure KeyState where
  /-- R34 -/
  variant : Variant
  /-- the forward schedule `W`, word 0 first (R35) -/
  W : List Word
  /-- the inverse schedule `Winv`, word 0 first (R36) -/
  Winv : List Word
  deriving DecidableEq, Repr

/-- One engine instance (R33, R48). -/
structure Engine where
  /-- `variant`, `W` and `Winv`, or `none`: the spec's own state "no engine has been produced", in which these three
  hold no value (R38, R50). The bit `keyed` is whether there is a value (`Engine.keyed`): R38 makes the two the same. -/
  key : Option KeyState
  /-- R37 -/
  backend : Backend
  /-- the working registers `s[0..3]` (R30) -/
  s : Columns
  /-- the temporary registers `t[0..3]` (R31) -/
  t : Columns
  /-- the key-expansion temporary `temp` (R32) -/
  temp : Word
  deriving DecidableEq, Repr

/-- The status bit `keyed` (R38). -/
def Engine.keyed (e : Engine) : Bool := e.key.isSome

/-- An instance right after its reset (R50, R281): unkeyed, backend `software`, and `variant`, `W`, `Winv` without a
value. The working registers hold no value either, and a model must never supply zero for it (R50): they hold free
values (DESIGN CHOICE, log 4). No command reads one before it has written it. -/
def Engine.reset : Engine :=
  { key := none
    backend := .software
    s := ⟨Config.resetWord 0, Config.resetWord 1, Config.resetWord 2, Config.resetWord 3⟩
    t := ⟨Config.resetWord 4, Config.resetWord 5, Config.resetWord 6, Config.resetWord 7⟩
    temp := Config.resetWord 8 }

/-- The status of a command: six, and no other (R96, R250, U14). -/
inductive Status where
  | ok
  | invalidKeyLength
  | notKeyed
  | bufferFault
  | illegalCommand
  | concurrentRekey
  deriving DecidableEq, Repr

/-- The response `(status, value)` of a command (R95), with the instance that gave it. -/
structure Response where
  inst : Nat
  status : Status
  value : BitVec 8
  deriving DecidableEq, Repr

/-- Host buffer memory (R61): the octets that exist, as (address, octet) pairs, addresses strictly rising. An address
that is not listed holds no octet (log 3). -/
abbrev Memory := List Host.Cell

/-- How the host restricts a region of its memory (R76, R253). -/
inductive Access where
  | readOnly
  | writeOnly
  deriving DecidableEq, Repr

/-- A region of host memory that the engine may not write, or may not read: the host's predicates "readable" and
"writable", fixed at launch (R253). An octet in no region may be both. -/
structure Region where
  base : Nat
  size : Nat
  access : Access
  deriving DecidableEq, Repr

/-- A command that has been issued and has not given its response yet (R81, R82). -/
structure InFlight where
  inst : Nat
  instr : Instr
  /-- another agent has touched a buffer of this command since it was issued (R288) -/
  disturbed : Bool
  deriving DecidableEq, Repr

/-- What the host can do to the block (R20, R280, R285). -/
inductive HostEvent where
  /-- issue a command to an instance and wait for its response (R10, R80) -/
  | command (inst : Nat) (c : Command)
  /-- issue a command to an instance without waiting: it stays in flight (R81) -/
  | issue (inst : Nat) (c : Command)
  /-- the `k`-th command in flight, oldest first, takes effect and gives its response -/
  | complete (k : Nat)
  /-- reset an instance (R280); also `DESTROY`, and the first half of `CONSTRUCT` (R103) -/
  | resetInst (inst : Nat)
  /-- place an octet in host buffer memory (R43, R285) -/
  | hostStore (a : Nat) (v : Byte)
  deriving DecidableEq, Repr

/-- The state of the machine. -/
structure State where
  /-- the open parameters of this installation (R13): read by steps, written by none -/
  params : Params
  /-- the engine instances, numbered from 0; how many there are is `N_INSTANCES` (R13, R48) -/
  engines : List Engine
  /-- host buffer memory (R61) -/
  mem : Memory
  /-- the host's restrictions of it, fixed at launch (R253) -/
  prot : List Region
  /-- commands in flight, oldest first (R81) -/
  inFlight : List InFlight
  /-- what the host does next, oldest first (R40: the order of commands is the order in which the host issues them) -/
  queue : List HostEvent
  /-- the launch record: the responses given, oldest first (R39, R296) -/
  responses : List Response
  /-- the model's own: the instance to which the command now taking effect was issued (R48) -/
  target : Nat
  /-- the model's own: whether a buffer of the command now taking effect was touched by another agent (R288) -/
  disturbed : Bool
  /-- the model's own: the index of the next free value -/
  freeIdx : Nat
  deriving DecidableEq, Repr

/-- One instance in its reset state, host memory with no octet listed, nothing issued (R50, R281; `N_INSTANCES` is 1
in the spec's examples, log 2). -/
def State.reset : State :=
  { params := Params.default, engines := [Engine.reset], mem := [], prot := [], inFlight := [], queue := [],
    responses := [], target := 0, disturbed := false, freeIdx := 0 }

/-- How the model's machine stops. The block itself never halts, and a command whose status is not OK is a completed
command (R296): each of these is the HOST doing what no host of the spec can do. -/
inductive Fault where
  /-- raised by a command, an issue or a reset that names an instance the machine does not have (R48), and by a meaning
  run for such an instance; safe: the machine stops where no hardware exists -/
  | noSuchInstance
  /-- raised by `complete k` when fewer than `k + 1` commands are in flight; safe: there is nothing to go on with -/
  | noSuchCommand
  /-- raised by a reset of an instance that has a command in flight: a reset can occur only between commands (R280);
  safe: the spec gives no state for it -/
  | resetDuringCommand
  /-- raised by a host store beyond the address space (R61, R63); safe: the address does not exist -/
  | hostAddressOutside
  deriving DecidableEq, Repr

/-- What the model gives no meaning to. -/
inductive Refusal where
  /-- raised by `exec` for an instruction that has no meaning yet; safe -/
  | notModelled (mnemonic : String)
  /-- raised by ENCRYPT on a keyed instance whose `W`, and by DECRYPT on one whose `Winv`, lacks a word it reads, a state no
  run reaches: reading a word that holds no value is a model error, refused and never zero (R35, R50, U7); safe -/
  | scheduleWordAbsent
  deriving DecidableEq, Repr

end Sys2Proof.Machine
end

