-- ==== Sys2Proof/Machine/Operands.lean ====
section
/-! DEFINITION. Operands: the bytes of a word and the columns of a state (R14, R30), the parameters each variant fixes
(R11, R182), and the host buffers a command names (R62, R91). -/

namespace Sys2Proof.Machine

/-- `byte3(w) = w[31:24]`, the most significant byte (R14). -/
def byte3 (w : Word) : Byte := w.extractLsb' 24 8

/-- `byte2(w) = w[23:16]` (R14). -/
def byte2 (w : Word) : Byte := w.extractLsb' 16 8

/-- `byte1(w) = w[15:8]` (R14). -/
def byte1 (w : Word) : Byte := w.extractLsb' 8 8

/-- `byte0(w) = w[7:0]` (R14). -/
def byte0 (w : Word) : Byte := w.extractLsb' 0 8

/-- The word written `(a, b, c, d)`, most significant byte first: `a·2^24 | b·2^16 | c·2^8 | d` (R14). -/
def mkWord (a b c d : Byte) : Word :=
  a.setWidth 32 <<< 24 ||| b.setWidth 32 <<< 16 ||| c.setWidth 32 <<< 8 ||| d.setWidth 32

/-- Octet `i` of a word in buffer order, most significant first (R66): bits `[31-8i : 24-8i]`. -/
def wordOctet (w : Word) : Nat → Byte
  | 0 => byte3 w
  | 1 => byte2 w
  | 2 => byte1 w
  | _ => byte0 w

/-- `s[c]` (R17). -/
def Columns.get (s : Columns) : Fin 4 → Word
  | 0 => s.c0
  | 1 => s.c1
  | 2 => s.c2
  | 3 => s.c3

/-- The four words computed by `f`, all of them before any is used (R31). -/
def Columns.ofFn (f : Fin 4 → Word) : Columns := { c0 := f 0, c1 := f 1, c2 := f 2, c3 := f 3 }

/-- `Nk`, the number of 32-bit words in the key (R11). -/
def Variant.nk : Variant → Nat
  | .aes128 => 4
  | .aes192 => 6
  | .aes256 => 8

/-- `Nr`, the number of rounds (R11, R182 step 4: `Nr = Nk + 6`). -/
def Variant.nr (v : Variant) : Nat := v.nk + 6

/-- The number of schedule words, `4·(Nr+1)`: 44, 52 or 60 (R11). -/
def Variant.words (v : Variant) : Nat := 4 * (v.nr + 1)

/-- The length of the variant's key in octets (R11). -/
def Variant.keyLength (v : Variant) : Nat := 4 * v.nk

/-- The variant a key length selects, none for the 253 lengths that are rejected (R181, R182). -/
def variantOfKeyLength (klen : BitVec 8) : Option Variant :=
  if klen = 16 then some .aes128
  else if klen = 24 then some .aes192
  else if klen = 32 then some .aes256
  else none

/-- Whether a command is SETKEY, the one that must be alone on its instance (R82). -/
def Instr.isSetkey : Instr → Bool
  | .setkey _ _ => true
  | .encrypt _ _ => false
  | .decrypt _ _ => false
  | .keylen => false
  | .blklen => false

/-- A buffer in host memory: `size` consecutive octets from `base` (R62). -/
structure Buffer where
  base : Nat
  size : Nat
  deriving DecidableEq, Repr

/-- The address is one of the buffer's. -/
def Buffer.contains (b : Buffer) (a : Nat) : Bool := decide (b.base ≤ a) && decide (a < b.base + b.size)

/-- The two buffers have an address in common. -/
def Buffer.overlaps (b c : Buffer) : Bool :=
  decide (b.base < c.base + c.size) && decide (c.base < b.base + b.size)

/-- The buffers a command reads: the key buffer, none when the length check fails, or the input block (R72). -/
def readBuffers : Instr → List Buffer
  | .setkey klen keyAddr =>
    match variantOfKeyLength klen with
    | none => []
    | some v => [{ base := keyAddr, size := v.keyLength }]
  | .encrypt inAddr _ => [{ base := inAddr, size := 16 }]
  | .decrypt inAddr _ => [{ base := inAddr, size := 16 }]
  | .keylen => []
  | .blklen => []

/-- The buffers a command writes: the output block (R72). -/
def writeBuffers : Instr → List Buffer
  | .setkey _ _ => []
  | .encrypt _ outAddr => [{ base := outAddr, size := 16 }]
  | .decrypt _ outAddr => [{ base := outAddr, size := 16 }]
  | .keylen => []
  | .blklen => []

/-- A buffer the first command writes overlaps one that the second reads or writes. -/
def writesInto (i j : Instr) : Bool :=
  (writeBuffers i).any fun b => (readBuffers j ++ writeBuffers j).any fun c => b.overlaps c

/-- The condition under which two commands in flight together are not promised the results they have alone: a command's
output buffer overlaps the other's input or output buffer (R81). -/
def buffersClash (i j : Instr) : Bool := writesInto i j || writesInto j i

end Sys2Proof.Machine
end

