-- ==== Sys2Proof/Machine/Flags.lean ====
section
/-! DEFINITION. The block has no condition codes, carry, overflow or predicate flags (R41); the only status-like bit is
`keyed` (R38). What a command reports of itself is its response, so this file holds the numbers of the response: the
status codes (R96) and the value of KEYLEN and BLKLEN (R95, R230, R231). -/

namespace Sys2Proof.Machine

/-- The 4-bit status code (R95, R96); the codes 6 to 15 are never returned. -/
def Status.code : Status → BitVec 4
  | .ok => 0
  | .invalidKeyLength => 1
  | .notKeyed => 2
  | .bufferFault => 3
  | .illegalCommand => 4
  | .concurrentRekey => 5

/-- The 2-bit encoding of `variant` (R34); 3 has no meaning and is never produced. -/
def Variant.code : Variant → BitVec 2
  | .aes128 => 0
  | .aes192 => 1
  | .aes256 => 2

/-- The value KEYLEN reports: the key length in octets (R230). -/
def Variant.keyLengthValue : Variant → BitVec 8
  | .aes128 => 16
  | .aes192 => 24
  | .aes256 => 32

/-- The value BLKLEN reports: the block length in octets (R231). -/
def blockLengthValue : BitVec 8 := 16

end Sys2Proof.Machine
end

