-- ==== Sys2Proof/Machine/Ops.lean ====
section
/-! DEFINITION. The shared operations: host memory in its canonical form, `MemRead` and `MemWrite` with the checks made
before them (R64, R65, R253), the engine a command is issued to, and the response of a command. A fault of the block is
a response (R258): delivering one is `raiseStatus`, and there is nothing to return from (R260). -/

namespace Sys2Proof.Machine

/-- The octet at an address, none where the memory holds none. -/
def Memory.get? : Memory → Nat → Option Byte
  | [], _ => none
  | (b, v) :: m, a => if b = a then some v else Memory.get? m a

/-- The memory with the octet `v` at the address `a`, in canonical form if it was. -/
def Memory.set : Memory → Nat → Byte → Memory
  | [], a, v => [(a, v)]
  | (b, w) :: m, a, v =>
    if a < b then (a, v) :: (b, w) :: m
    else if a = b then (a, v) :: m
    else (b, w) :: Memory.set m a v

/-- Octets written one after the other at ascending addresses (R65). -/
def Memory.writeList : Memory → Nat → List Byte → Memory
  | m, _, [] => m
  | m, a, v :: vs => Memory.writeList (m.set a v) (a + 1) vs

/-- `MemWrite(addr, n, v)` (R65). -/
def Memory.write {n : Nat} (m : Memory) (a : Nat) (v : Octets n) : Memory := m.writeList a (List.ofFn v)

/-- The canonical form: addresses strictly rising. (An unlisted address holds no octet, so no entry can repeat what an
unlisted address reads as.) -/
abbrev Memory.wf (m : Memory) : Prop := m.Pairwise fun c d => c.1 < d.1

/-- Every octet listed is at an address of `w` bits (R61). -/
abbrev Memory.within (m : Memory) (w : Nat) : Prop := ∀ c ∈ m, c.1 < 2 ^ w

/-- The address is in the region. -/
def Region.contains (r : Region) (a : Nat) : Bool := decide (r.base ≤ a) && decide (a < r.base + r.size)

/-- Some region of the host with that restriction holds the address. -/
def State.restricts (s : State) (acc : Access) (a : Nat) : Bool :=
  s.prot.any fun r => decide (r.access = acc) && r.contains a

/-- There is an octet at the address, and the address is one of the address space (R61, R63). -/
def State.present (s : State) (a : Nat) : Bool := decide (a < 2 ^ s.params.addrW) && (Memory.get? s.mem a).isSome

/-- The engine may read the octet at the address (R76, R253). -/
def State.readable (s : State) (a : Nat) : Bool := s.present a && !s.restricts .writeOnly a

/-- The engine may write the octet at the address (R76, R253). -/
def State.writable (s : State) (a : Nat) : Bool := s.present a && !s.restricts .readOnly a

/-- Every octet of the buffer may be read: `readable(addr, n)` of R180, R200 and R215. A buffer that would run past the
top of the address space is not readable (R63). -/
abbrev State.bufferReadable (s : State) (a : Nat) (n : Nat) : Prop := ∀ j : Fin n, s.readable (a + j) = true

/-- Every octet of the buffer may be written: `writable(addr, n)` of R200 and R215. -/
abbrev State.bufferWritable (s : State) (a : Nat) (n : Nat) : Prop := ∀ j : Fin n, s.writable (a + j) = true

/-- An octet that may be read exists. -/
theorem State.get?_isSome_of_readable {s : State} {a : Nat} (h : s.readable a = true) :
    (Memory.get? s.mem a).isSome = true := by
  simp only [State.readable, State.present, Bool.and_eq_true] at h
  exact h.1.2

/-- `MemRead(addr, n)`: the octets of a readable buffer in ascending order (R64). Octets of a buffer that another agent
touched while the command was in flight are free values (R288, U6; log 8). -/
def State.memRead (s : State) (a : Nat) (n : Nat) (h : s.bufferReadable a n) : Octets n := fun j =>
  if s.disturbed then Config.freeOctet (s.freeIdx + j)
  else (Memory.get? s.mem (a + j)).get (State.get?_isSome_of_readable (h j))

/-- The check and the read together: none is `BufferFault` (R253). -/
def State.readBuffer (s : State) (a : Nat) (n : Nat) : Option (Octets n) :=
  if h : s.bufferReadable a n then some (s.memRead a n h) else none

/-- The instance to which the command now taking effect was issued (R48). -/
def State.engine? (s : State) : Option Engine := s.engines[s.target]?

/-- The state with that instance replaced, and no other (R48). -/
def State.setEngine (s : State) (e : Engine) : State := { s with engines := s.engines.set s.target e }

/-- The command ends with a response (R95): it joins the launch record and nothing else changes. -/
def State.respond (s : State) (st : Status) (value : BitVec 8) : State :=
  { s with responses := s.responses ++ [{ inst := s.target, status := st, value := value }] }

/-- Delivery of a fault: `raise E`. The command ends with the response `(E, 0)`; nothing is saved, no mode changes,
control goes nowhere and nothing is recorded elsewhere (R250, R258). -/
def State.raiseStatus (s : State) (st : Status) : State := s.respond st 0

/-- A free word for a working register, and the free state of four of them (R30 to R32). -/
def freeColumns (k : Nat) : Columns :=
  { c0 := Config.freeWord k, c1 := Config.freeWord (k + 1), c2 := Config.freeWord (k + 2), c3 := Config.freeWord (k + 3) }

/-- After ENCRYPT or DECRYPT the content of `s` and `t` is unspecified (R30, R31). -/
def Engine.releaseCipher (e : Engine) (k : Nat) : Engine := { e with s := freeColumns k, t := freeColumns (k + 4) }

/-- After SETKEY the content of `temp` is unspecified (R32). -/
def Engine.releaseTemp (e : Engine) (k : Nat) : Engine := { e with temp := Config.freeWord (k + 8) }

/-- The free values used so far are not used again. -/
def State.spendFree (s : State) : State := { s with freeIdx := s.freeIdx + Config.freeStride }

/-- The instance has no key: `variant`, `W` and `Winv` hold no value (R189, R255). -/
def Engine.unkey (e : Engine) : Engine := { e with key := none }

end Sys2Proof.Machine
end

