-- ==== Sys2Proof/Machine/Tables.lean ====
section
/-! DEFINITION. The constant tables (R42, R133) and the field arithmetic that defines them (R120). `S` and `Si` are the
listings of R123 and R125, one row of sixteen octets a line; `Rcon` is the listing of R131; the T-tables are their
formulas, R140 to R143. They are functions and not state: no command writes them. -/

namespace Sys2Proof.Machine

/-- Multiplication by x modulo 0x11B (R120). -/
def xtime (a : Byte) : Byte := if a.getLsbD 7 then (a <<< 1) ^^^ 0x1B else a <<< 1

/-- `xtime` applied `i` times (R120). -/
def xtimePow : Nat → Byte → Byte
  | 0, a => a
  | i + 1, a => xtime (xtimePow i a)

/-- The part of `a • b` that bit `i` of `b` contributes (R120). -/
def gmulTerm (a b : Byte) (i : Nat) : Byte := if b.getLsbD i then xtimePow i a else 0

/-- Multiplication in GF(2^8) modulo 0x11B (R16, R120). -/
def gmul (a b : Byte) : Byte :=
  gmulTerm a b 0 ^^^ gmulTerm a b 1 ^^^ gmulTerm a b 2 ^^^ gmulTerm a b 3 ^^^
    gmulTerm a b 4 ^^^ gmulTerm a b 5 ^^^ gmulTerm a b 6 ^^^ gmulTerm a b 7

/-- The sixteen rows of the listing of `S`, each read as one number with the entry of column x0 on the left (R123). -/
def sboxRows : List Nat :=
  [0x637c777bf26b6fc53001672bfed7ab76, 0xca82c97dfa5947f0add4a2af9ca472c0,
   0xb7fd9326363ff7cc34a5e5f171d83115, 0x04c723c31896059a071280e2eb27b275,
   0x09832c1a1b6e5aa0523bd6b329e32f84, 0x53d100ed20fcb15b6acbbe394a4c58cf,
   0xd0efaafb434d338545f9027f503c9fa8, 0x51a3408f929d38f5bcb6da2110fff3d2,
   0xcd0c13ec5f974417c4a77e3d645d1973, 0x60814fdc222a908846eeb814de5e0bdb,
   0xe0323a0a4906245cc2d3ac629195e479, 0xe7c8376d8dd54ea96c56f4ea657aae08,
   0xba78252e1ca6b4c6e8dd741f4bbd8b8a, 0x703eb5664803f60e613557b986c11d9e,
   0xe1f8981169d98e949b1e87e9ce5528df, 0x8ca1890dbfe6426841992d0fb054bb16]

/-- The sixteen rows of the listing of `Si` (R125). -/
def invSboxRows : List Nat :=
  [0x52096ad53036a538bf40a39e81f3d7fb, 0x7ce339829b2fff87348e4344c4dee9cb,
   0x547b9432a6c2233dee4c950b42fac34e, 0x082ea16628d924b2765ba2496d8bd125,
   0x72f8f66486689816d4a45ccc5d65b692, 0x6c704850fdedb9da5e154657a78d9d84,
   0x90d8ab008cbcd30af7e45805b8b34506, 0xd02c1e8fca3f0f02c1afbd0301138a6b,
   0x3a9111414f67dcea97f2cfcef0b4e673, 0x96ac7422e7ad3585e2f937e81c75df6e,
   0x47f11a711d29c5896fb7620eaa18be1b, 0xfc563e4bc6d279209adbc0fe78cd5af4,
   0x1fdda8338807c731b11210592780ec5f, 0x60517fa919b54a0d2de57a9f93c99cef,
   0xa0e03b4dae2af5b0c8ebbb3c83539961, 0x172b047eba77d626e169146355210c7d]

/-- The entry for `x = 16·row + column` of a listing of sixteen rows of sixteen octets (R123). -/
def listedOctet (rows : List Nat) (x : Byte) : Byte :=
  BitVec.ofNat 8 (rows.getD (x.toNat / 16) 0 >>> (8 * (15 - x.toNat % 16)))

/-- The S-box `S` (R122, R123). -/
def sbox (x : Byte) : Byte := listedOctet sboxRows x

/-- The inverse S-box `Si` (R124, R125). -/
def invSbox (x : Byte) : Byte := listedOctet invSboxRows x

/-- The index type of `Rcon`: 1 to 10, and no other (R131, R132, D14). -/
abbrev RconIndex := { j : Nat // 1 ≤ j ∧ j ≤ 10 }

/-- The listing of `Rcon[1]` to `Rcon[10]` (R131). -/
def rconListing : List Word :=
  [0x01000000, 0x02000000, 0x04000000, 0x08000000, 0x10000000, 0x20000000, 0x40000000, 0x80000000, 0x1b000000,
   0x36000000]

/-- `Rcon[j]` (R130, R131). At an index outside 1 to 10 it cannot be read at all, and has no value (R132, U8). -/
def rcon (j : RconIndex) : Word :=
  rconListing[j.val - 1]'(by have := j.property; simp only [rconListing, List.length_cons, List.length_nil]; omega)

/-- `Enc0[b] = (2•S[b], S[b], S[b], 3•S[b])` (R140). -/
def enc0 (b : Byte) : Word := mkWord (xtime (sbox b)) (sbox b) (sbox b) (xtime (sbox b) ^^^ sbox b)

/-- `Enc1[b] = rotr32(Enc0[b], 8)` (R141; the direction is the one spec/90_conflicts.md C1 settles). -/
def enc1 (b : Byte) : Word := (enc0 b).rotateRight 8

/-- `Enc2[b] = rotr32(Enc0[b], 16)` (R141). -/
def enc2 (b : Byte) : Word := (enc0 b).rotateRight 16

/-- `Enc3[b] = rotr32(Enc0[b], 24)` (R141). -/
def enc3 (b : Byte) : Word := (enc0 b).rotateRight 24

/-- The word `(0e•x, 09•x, 0d•x, 0b•x)`, the products written out as R120 does. -/
def invMixWord (x : Byte) : Word :=
  let x2 := xtime x
  let x4 := xtime x2
  let x8 := xtime x4
  mkWord (x8 ^^^ x4 ^^^ x2) (x8 ^^^ x) (x8 ^^^ x4 ^^^ x) (x8 ^^^ x2 ^^^ x)

/-- `Dec0[b] = (0e•Si[b], 09•Si[b], 0d•Si[b], 0b•Si[b])`, from the inverse S-box and nothing else (R142, R144). -/
def dec0 (b : Byte) : Word := invMixWord (invSbox b)

/-- `Dec1[b] = rotr32(Dec0[b], 8)` (R143). -/
def dec1 (b : Byte) : Word := (dec0 b).rotateRight 8

/-- `Dec2[b] = rotr32(Dec0[b], 16)` (R143). -/
def dec2 (b : Byte) : Word := (dec0 b).rotateRight 16

/-- `Dec3[b] = rotr32(Dec0[b], 24)` (R143). -/
def dec3 (b : Byte) : Word := (dec0 b).rotateRight 24

end Sys2Proof.Machine
end

