-- ==== Sys2Proof/Machine/Primitives.lean ====
section
/-! DEFINITION. The ten primitive word operations of spec/42_primitive_ops.md, pure functions in terms of which the
commands are written (R105). -/

namespace Sys2Proof.Machine

/-- `LoadWord(buffer, c)`: octets `4c .. 4c+3`, the first one most significant (R160, R66). -/
def loadWord {n : Nat} (buf : Octets n) (c : Nat) (h : 4 * c + 3 < n) : Word :=
  mkWord (buf ⟨4 * c, by omega⟩) (buf ⟨4 * c + 1, by omega⟩) (buf ⟨4 * c + 2, by omega⟩) (buf ⟨4 * c + 3, h⟩)

/-- `StoreWord(word, c, out)`: octets `4c .. 4c+3` of `out`, most significant byte first, and no other (R161). -/
def storeWord (w : Word) (c : Fin 4) (out : Octets 16) : Octets 16 := fun j =>
  if j.val / 4 = c.val then wordOctet w (j.val % 4) else out j

/-- `RotWord(w) = rotl32(w, 8)` (R162). -/
def rotWord (w : Word) : Word := w.rotateLeft 8

/-- `SubWord(w)`: the S-box on each byte lane by itself (R163). -/
def subWord (w : Word) : Word := mkWord (sbox (byte3 w)) (sbox (byte2 w)) (sbox (byte1 w)) (sbox (byte0 w))

/-- `AddRoundKey(a, b) = a ^ b` (R164). -/
def addRoundKey (a b : Word) : Word := a ^^^ b

/-- `MixColShiftRow(c, s)` (R166). The sums `c + k` are taken mod 4. -/
def mixColShiftRow (c : Fin 4) (s : Columns) : Word :=
  enc0 (byte3 (s.get c)) ^^^ enc1 (byte2 (s.get (c + 1))) ^^^ enc2 (byte1 (s.get (c + 2))) ^^^
    enc3 (byte0 (s.get (c + 3)))

/-- `InvMixColShiftRow(c, s)` (R167). -/
def invMixColShiftRow (c : Fin 4) (s : Columns) : Word :=
  dec0 (byte3 (s.get c)) ^^^ dec1 (byte2 (s.get (c + 3))) ^^^ dec2 (byte1 (s.get (c + 2))) ^^^
    dec3 (byte0 (s.get (c + 1)))

/-- `SubBytesShiftRows(c, s)` (R168). -/
def subBytesShiftRows (c : Fin 4) (s : Columns) : Word :=
  mkWord (sbox (byte3 (s.get c))) (sbox (byte2 (s.get (c + 1)))) (sbox (byte1 (s.get (c + 2))))
    (sbox (byte0 (s.get (c + 3))))

/-- `InvSubBytesShiftRows(c, s)` (R169). -/
def invSubBytesShiftRows (c : Fin 4) (s : Columns) : Word :=
  mkWord (invSbox (byte3 (s.get c))) (invSbox (byte2 (s.get (c + 3)))) (invSbox (byte1 (s.get (c + 2))))
    (invSbox (byte0 (s.get (c + 1))))

/-- `FastInvMixColumn(w)` (R170). -/
def fastInvMixColumn (w : Word) : Word :=
  dec0 (sbox (byte3 w)) ^^^ dec1 (sbox (byte2 w)) ^^^ dec2 (sbox (byte1 w)) ^^^ dec3 (sbox (byte0 w))

/-- `W[i]` or `Winv[i]`: the word at an index of a schedule (R17). Past the end a schedule holds no value, and no rule
reads there (R35, U7). -/
def schedWord (W : List Word) (i : Nat) : Word := W.getD i (Config.absentWord i)

/-- The load step: `s[c] = LoadWord(block_in, c)` (R202, R217). -/
def loadColumns (block : Octets 16) : Columns :=
  { c0 := loadWord block 0 (by decide), c1 := loadWord block 1 (by decide), c2 := loadWord block 2 (by decide),
    c3 := loadWord block 3 (by decide) }

/-- The store step: `StoreWord(s[c], c, out)` for c = 0, 1, 2, 3, on a staging value (R206, R221). -/
def storeColumns (s : Columns) : Octets 16 :=
  storeWord s.c3 3 (storeWord s.c2 2 (storeWord s.c1 1 (storeWord s.c0 0 Config.emptyStaging)))

/-- The addition of a round key, four words from index `4r` (R203, R218). -/
def addRoundKeys (W : List Word) (r : Nat) (s : Columns) : Columns :=
  Columns.ofFn fun c => addRoundKey (s.get c) (schedWord W (4 * r + c))

end Sys2Proof.Machine
end

