-- ==== Sys2Proof/Machine/KeySchedule.lean ====
section
/-! DEFINITION. The key schedule engine and its command SETKEY (spec/43_key_schedule.md). -/

namespace Sys2Proof.Machine

/-- `i div Nk` is an index of `Rcon` wherever the expansion reads the table (R131, R185). -/
theorem rconIndex_bounds {v : Variant} {i : Nat} (h : v.nk ≤ i ∧ i < v.words) : 1 ≤ i / v.nk ∧ i / v.nk ≤ 10 := by
  obtain ⟨h1, h2⟩ := h
  cases v <;> simp only [Variant.words, Variant.nr, Variant.nk] at * <;> omega

/-- The index at which the expansion of word `i` reads `Rcon` (R184, R185). -/
def rconIndex (v : Variant) (i : Nat) (h : v.nk ≤ i ∧ i < v.words) : RconIndex := ⟨i / v.nk, rconIndex_bounds h⟩

/-- The value of `temp` that goes into `W[i]`, from `temp = W[i-1]` (R184). -/
def scheduleTemp (v : Variant) (i : Nat) (h : v.nk ≤ i ∧ i < v.words) (temp : Word) : Word :=
  if i % v.nk = 0 then subWord (rotWord temp) ^^^ rcon (rconIndex v i h)
  else if v.nk = 8 ∧ i % v.nk = 4 then subWord temp
  else temp

/-- `W[i]` for `i` the number of words already there (R184). -/
def nextWord (v : Variant) (W : List Word) (h : v.nk ≤ W.length ∧ W.length < v.words) : Word :=
  schedWord W (W.length - v.nk) ^^^ scheduleTemp v W.length h (schedWord W (W.length - 1))

/-- What stays true of the number of words when one is added and one less is to come. -/
theorem expandWords_bounds {v : Variant} {n : Nat} {W : List Word} {w : Word}
    (h : v.nk ≤ W.length ∧ W.length + (n + 1) ≤ v.words) :
    v.nk ≤ (W ++ [w]).length ∧ (W ++ [w]).length + n ≤ v.words := by
  simp only [List.length_append, List.length_cons, List.length_nil]
  omega

/-- `n` more words of the schedule, in ascending order (R184). -/
def expandWords (v : Variant) : (n : Nat) → (W : List Word) → v.nk ≤ W.length ∧ W.length + n ≤ v.words → List Word
  | 0, W, _ => W
  | n + 1, W, h => expandWords v n (W ++ [nextWord v W ⟨h.1, by omega⟩]) (expandWords_bounds h)

/-- The first `Nk` words: the key itself (R183). -/
def keyWords (v : Variant) (key : Octets v.keyLength) : List Word :=
  List.ofFn fun i : Fin v.nk => loadWord key i (by have := i.isLt; simp only [Variant.keyLength]; omega)

/-- The key gives `Nk` words, and the rest of the schedule is still to come (R183). -/
theorem keyWords_bounds (v : Variant) (key : Octets v.keyLength) :
    v.nk ≤ (keyWords v key).length ∧ (keyWords v key).length + (v.words - v.nk) ≤ v.words := by
  simp only [keyWords, List.length_ofFn, Variant.words, Variant.nr]
  omega

/-- The forward schedule (R183, R184). -/
def forwardSchedule (v : Variant) (key : Octets v.keyLength) : List Word :=
  expandWords v (v.words - v.nk) (keyWords v key) (keyWords_bounds v key)

/-- The inverse schedule made of a forward one (R186): FastInvMixColumn on the words of rounds 1 to Nr-1, each word
in its place. -/
def inverseSchedule (v : Variant) (W : List Word) : List Word :=
  W.mapIdx fun i w => if 4 ≤ i ∧ i < 4 * v.nr then fastInvMixColumn w else w

/-- Key expansion: what a successful SETKEY leaves in the instance (R180 steps 4 to 8). -/
def expandKey (v : Variant) (key : Octets v.keyLength) : KeyState :=
  { variant := v, W := forwardSchedule v key, Winv := inverseSchedule v (forwardSchedule v key) }

/-- What a failed SETKEY leaves of an instance (R189). An instance without a key is unchanged under either policy. -/
def Engine.afterFailedSetkey (e : Engine) : FailPolicy → Engine
  | .invalidate => e.unkey
  | .preserve => e

/-- A SETKEY that fails with `InvalidKeyLength` or `BufferFault` (R189, R251, R253). -/
def State.failSetkey (s : State) (e : Engine) (st : Status) : State :=
  (s.setEngine (e.afterFailedSetkey s.params.setkeyFailPolicy)).raiseStatus st

/-- A SETKEY that succeeds: the commit of R187, and the response (R180 step 9). -/
def State.commitKey (s : State) (e : Engine) (k : KeyState) : State :=
  ((s.setEngine (Engine.releaseTemp { e with key := some k } s.freeIdx)).spendFree).respond .ok 0

/-- SETKEY (R180): the length check, then the key buffer, then the expansion. -/
def execSetkey (klen : BitVec 8) (keyAddr : Nat) (s : State) : Host.Outcome State Fault Refusal :=
  match s.engine? with
  | none => .fault .noSuchInstance
  | some e =>
    match variantOfKeyLength klen with
    | none => .next (s.failSetkey e .invalidKeyLength)
    | some v =>
      match s.readBuffer keyAddr v.keyLength with
      | none => .next (s.failSetkey e .bufferFault)
      | some key => .next (s.commitKey e (expandKey v key))

end Sys2Proof.Machine
end

