-- ==== Sys2Proof/Machine/Cipher.lean ====
section
/-! DEFINITION. What ENCRYPT and DECRYPT share: the checks of R200 and R215 steps 1 and 2, in their order, and the
commit of the output block. -/

namespace Sys2Proof.Machine

/-- A schedule has all the words 0 to 4Nr+3 that a command of the variant reads (R35, R36). -/
def hasWords (v : Variant) (W : List Word) : Bool := decide (v.words ≤ W.length)

/-- The output block is written and the command answers `(OK, 0)` (R206, R221); the content of the working registers
is unspecified from here on (R30, R31). -/
def State.commitBlock (s : State) (e : Engine) (outAddr : Nat) (out : Octets 16) : State :=
  ((({ s with mem := s.mem.write outAddr out }).setEngine (e.releaseCipher s.freeIdx)).spendFree).respond .ok 0

/-- One block through `cipher`: `keyed`, then the buffers, then the 16 octets read, transformed and written (R200, R215,
R257). All of the input is read before any of the output is written (R77). `sched` is the one schedule the cipher reads:
the other is not looked at (R207, R222). -/
def runCipher (sched : KeyState → List Word) (cipher : KeyState → Octets 16 → Octets 16) (inAddr outAddr : Nat)
    (s : State) : Host.Outcome State Fault Refusal :=
  match s.engine? with
  | none => .fault .noSuchInstance
  | some e =>
    match e.key with
    | none => .next (s.raiseStatus .notKeyed)
    | some k =>
      match s.readBuffer inAddr 16 with
      | none => .next (s.raiseStatus .bufferFault)
      | some block =>
        if s.bufferWritable outAddr 16 then
          if hasWords k.variant (sched k) then .next (s.commitBlock e outAddr (cipher k block))
          else .refused .scheduleWordAbsent
        else .next (s.raiseStatus .bufferFault)

end Sys2Proof.Machine
end

