-- ==== Sys2Proof/Machine/Decrypt.lean ====
section
/-! DEFINITION. The T-table decryption pipeline and its command DECRYPT (spec/45_decrypt.md). -/

namespace Sys2Proof.Machine

/-- A middle round (R219): the Dec tables and `Winv`, all four `t[c]` from the same `s`. -/
def decRound (Winv : List Word) (r : Nat) (s : Columns) : Columns :=
  Columns.ofFn fun c => invMixColShiftRow c s ^^^ schedWord Winv (4 * r + c)

/-- Rounds `n` down to 1, in descending order (R219). -/
def decRounds (Winv : List Word) : Nat → Columns → Columns
  | 0, s => s
  | n + 1, s => decRounds Winv n (decRound Winv (n + 1) s)

/-- The final round, with the words `Winv[0..3]` (R220). -/
def decFinal (Winv : List Word) (s : Columns) : Columns :=
  Columns.ofFn fun c => invSubBytesShiftRows c s ^^^ schedWord Winv c

/-- Round 0 with the words `Winv[4Nr..4Nr+3]`, the middle rounds and the final round (R218 to R220). -/
def decryptColumns (k : KeyState) (s : Columns) : Columns :=
  decFinal k.Winv (decRounds k.Winv (k.variant.nr - 1) (addRoundKeys k.Winv k.variant.nr s))

/-- Decryption of one block (R215 steps 3 to 7). -/
def decryptBlock (k : KeyState) (block : Octets 16) : Octets 16 :=
  storeColumns (decryptColumns k (loadColumns block))

/-- DECRYPT (R215). -/
def execDecrypt (inAddr outAddr : Nat) (s : State) : Host.Outcome State Fault Refusal :=
  runCipher KeyState.Winv decryptBlock inAddr outAddr s

end Sys2Proof.Machine
end

