-- ==== Sys2Proof/Machine/Encrypt.lean ====
section
/-! DEFINITION. The T-table encryption pipeline and its command ENCRYPT (spec/44_encrypt.md). -/

namespace Sys2Proof.Machine

/-- A middle round: all four `t[c]` from the same `s`, and then `s ← t` (R204, R31). -/
def encRound (W : List Word) (r : Nat) (s : Columns) : Columns :=
  Columns.ofFn fun c => mixColShiftRow c s ^^^ schedWord W (4 * r + c)

/-- Rounds 1 to `n`, in ascending order (R204). -/
def encRounds (W : List Word) : Nat → Columns → Columns
  | 0, s => s
  | n + 1, s => encRound W (n + 1) (encRounds W n s)

/-- The final round (R205). -/
def encFinal (W : List Word) (nr : Nat) (s : Columns) : Columns :=
  Columns.ofFn fun c => subBytesShiftRows c s ^^^ schedWord W (4 * nr + c)

/-- Rounds 0 to Nr on the columns of a block (R203 to R205). -/
def encryptColumns (k : KeyState) (s : Columns) : Columns :=
  encFinal k.W k.variant.nr (encRounds k.W (k.variant.nr - 1) (addRoundKeys k.W 0 s))

/-- Encryption of one block (R200 steps 3 to 7). -/
def encryptBlock (k : KeyState) (block : Octets 16) : Octets 16 :=
  storeColumns (encryptColumns k (loadColumns block))

/-- ENCRYPT (R200). -/
def execEncrypt (inAddr outAddr : Nat) (s : State) : Host.Outcome State Fault Refusal :=
  runCipher KeyState.W encryptBlock inAddr outAddr s

end Sys2Proof.Machine
end

