-- ==== Sys2Proof/Machine/Queries.lean ====
section
/-! DEFINITION. The two queries, KEYLEN and BLKLEN (spec/46_queries_backend.md). -/

namespace Sys2Proof.Machine

/-- KEYLEN (R230): the key length in octets, or `NotKeyed`. -/
def execKeylen (s : State) : Host.Outcome State Fault Refusal :=
  match s.engine? with
  | none => .fault .noSuchInstance
  | some e =>
    match e.key with
    | none => .next (s.raiseStatus .notKeyed)
    | some k => .next (s.respond .ok k.variant.keyLengthValue)

/-- BLKLEN (R231): the constant 16, keyed or not. -/
def execBlklen (s : State) : Host.Outcome State Fault Refusal :=
  match s.engine? with
  | none => .fault .noSuchInstance
  | some _ => .next (s.respond .ok blockLengthValue)

end Sys2Proof.Machine
end

