-- ==== Sys2Proof/Machine/Dispatch.lean ====
section
/-! DEFINITION. The meaning of each command, one arm per constructor of Instr. -/

namespace Sys2Proof.Machine

def exec (i : Instr) (s : State) : Host.Outcome State Fault Refusal :=
  match i with
  | .setkey klen keyAddr => Sys2Proof.Machine.execSetkey klen keyAddr s
  | .encrypt inAddr outAddr => Sys2Proof.Machine.execEncrypt inAddr outAddr s
  | .decrypt inAddr outAddr => Sys2Proof.Machine.execDecrypt inAddr outAddr s
  | .keylen => Sys2Proof.Machine.execKeylen s
  | .blklen => Sys2Proof.Machine.execBlklen s

end Sys2Proof.Machine
end

