-- ==== Sys2Proof/Machine/Port.lean ====
section
/-! DEFINITION. The command port: what each action of the host does to the machine. A command that nothing overlaps is
one atomic transition, `exec` of what its record decodes to (R10, R80). Commands in flight together follow R81, R82 and
R255, and buffers touched meanwhile R288. -/

namespace Sys2Proof.Machine

/-- The instance exists (R48). -/
def State.hasInstance (s : State) (inst : Nat) : Bool := decide (inst < s.engines.length)

/-- A command is in flight on the instance. -/
def State.busy (s : State) (inst : Nat) : Bool := s.inFlight.any fun f => decide (f.inst = inst)

/-- Issuing the command would put a SETKEY and another command in flight together on the instance (R82, R255). -/
def State.rekeyClash (s : State) (inst : Nat) (i : Instr) : Bool :=
  s.inFlight.any fun f => decide (f.inst = inst) && (Instr.isSetkey i || Instr.isSetkey f.instr)

/-- The buffers of the command clash with those of one in flight, on any instance: host memory is shared (R81). -/
def State.bufferClash (s : State) (i : Instr) : Bool := s.inFlight.any fun f => buffersClash i f.instr

/-- The commands in flight, those whose buffers clash with the command's marked as disturbed (R288). -/
def disturbBy (i : Instr) (fs : List InFlight) : List InFlight :=
  fs.map fun f => if buffersClash i f.instr then { f with disturbed := true } else f

/-- The commands in flight, those one of whose buffers holds the address marked as disturbed (R288). -/
def disturbAt (a : Nat) (fs : List InFlight) : List InFlight :=
  fs.map fun f =>
    if (readBuffers f.instr ++ writeBuffers f.instr).any (fun b => b.contains a) then { f with disturbed := true } else f

/-- The response `(ConcurrentRekey, 0)` of a command (R255). -/
def rekeyResponse (inst : Nat) : Response := { inst := inst, status := .concurrentRekey, value := 0 }

/-- `ConcurrentRekey` (R255): every command in flight on the instance, and the one being issued, end with it, and the
instance becomes unkeyed. What the broken-off commands leave in the working registers is unspecified. -/
def State.abortRekey (s : State) (inst : Nat) : State :=
  State.spendFree
    { s with
      inFlight := s.inFlight.filter fun f => !decide (f.inst = inst)
      engines := s.engines.modify inst fun e => ((e.unkey).releaseCipher s.freeIdx).releaseTemp s.freeIdx
      responses := s.responses ++
        ((s.inFlight.filter fun f => decide (f.inst = inst)).map (fun _ => rekeyResponse inst) ++ [rekeyResponse inst]) }

/-- The state in which a command issued to the instance takes effect. -/
def State.select (s : State) (inst : Nat) (disturbed : Bool) : State :=
  { s with target := inst, disturbed := disturbed }

/-- The host issues a command and waits for its response (R80, R98, R254). -/
def runCommand (inst : Nat) (c : Command) (s : State) : Host.Outcome State Fault Refusal :=
  if s.hasInstance inst then
    match decode c with
    | .error _ => .next ((s.select inst false).raiseStatus .illegalCommand)
    | .ok i =>
      if s.rekeyClash inst i then .next (s.abortRekey inst)
      else exec i ({ s with inFlight := disturbBy i s.inFlight }.select inst (s.bufferClash i))
  else .fault .noSuchInstance

/-- The host issues a command and does not wait (R81): an illegal word is answered at once, a forbidden overlap is
`ConcurrentRekey` at this moment (R257), and any other command is in flight from here. -/
def runIssue (inst : Nat) (c : Command) (s : State) : Host.Outcome State Fault Refusal :=
  if s.hasInstance inst then
    match decode c with
    | .error _ => .next ((s.select inst false).raiseStatus .illegalCommand)
    | .ok i =>
      if s.rekeyClash inst i then .next (s.abortRekey inst)
      else .next
        { s with inFlight := disturbBy i s.inFlight ++ [{ inst := inst, instr := i, disturbed := s.bufferClash i }] }
  else .fault .noSuchInstance

/-- A command in flight takes effect, all at once, and gives its response (R10, R81). -/
def runComplete (k : Nat) (s : State) : Host.Outcome State Fault Refusal :=
  match s.inFlight[k]? with
  | none => .fault .noSuchCommand
  | some f => exec f.instr ({ s with inFlight := s.inFlight.eraseIdx k }.select f.inst f.disturbed)

/-- An instance after a reset in the midst of a run: what its working registers hold is unspecified again (R50, R281). -/
def Engine.resetAt (k : Nat) : Engine := (Engine.reset.releaseCipher k).releaseTemp k

/-- The reset of an instance, between commands only (R280, R281). No other instance is touched. -/
def runReset (inst : Nat) (s : State) : Host.Outcome State Fault Refusal :=
  if s.hasInstance inst then
    if s.busy inst then .fault .resetDuringCommand
    else .next (State.spendFree { s with engines := s.engines.set inst (Engine.resetAt s.freeIdx) })
  else .fault .noSuchInstance

/-- The host places an octet in its memory (R43, R285), also under a command in flight (R288). -/
def runHostStore (a : Nat) (v : Byte) (s : State) : Host.Outcome State Fault Refusal :=
  if a < 2 ^ s.params.addrW then .next { s with mem := s.mem.set a v, inFlight := disturbAt a s.inFlight }
  else .fault .hostAddressOutside

/-- What one action of the host does. -/
def runEvent : HostEvent → State → Host.Outcome State Fault Refusal
  | .command inst c, s => runCommand inst c s
  | .issue inst c, s => runIssue inst c s
  | .complete k, s => runComplete k s
  | .resetInst inst, s => runReset inst s
  | .hostStore a v, s => runHostStore a v s

/-- The next action of the host, taken from the queue; between actions the block is idle and keeps its state (R40, R268). -/
def runNext (s : State) : Host.Outcome State Fault Refusal :=
  match s.queue with
  | [] => .next s
  | ev :: rest => runEvent ev { s with queue := rest }

/-- The command `c`, issued to the selected instance, as the very next action, with nothing in flight beside it. -/
def State.withCommand (s : State) (c : Command) : State :=
  { s with queue := .command s.target c :: s.queue, inFlight := [] }

end Sys2Proof.Machine
end

