-- ==== Sys2Proof/Machine/Step.lean ====
section
/-! DEFINITION. One step of the machine: the next action of the host (R40: the block fetches nothing, the order of
commands is the order in which the host issues them). -/

namespace Sys2Proof.Machine

/-- One step. -/
def step (s : State) : Host.Outcome State Fault Refusal := runNext s

/-- The state with the instruction of these bits as its next command. -/
def State.withFetchWord (s : State) (nbits w : Nat) : State := s.withCommand (commandOfBits nbits w)

end Sys2Proof.Machine
end

