-- ==== Sys2Proof/Safety.lean ====
section
/-! DEFINITION. What claims are stated in terms of: the invariant of the state (R46 and the well-formedness the model
relies on), what the host may do, and a run. A machine is safe as long as its steps answer a next state. -/

namespace Sys2Proof.Machine

/-- The schedules are those of some key (R46 a to c). -/
def KeyState.Expanded (k : KeyState) : Prop := ∃ key : Octets k.variant.keyLength, k = expandKey k.variant key

/-- What holds of an instance at all times (R37, R38, R46). -/
structure Engine.Inv (e : Engine) : Prop where
  backend : e.backend = .software
  key : ∀ k, e.key = some k → k.Expanded

/-- No SETKEY is in flight together with another command on its instance (R82). -/
def State.SetkeyAlone (s : State) : Prop :=
  s.inFlight.Pairwise fun f g => f.inst = g.inst → Instr.isSetkey f.instr = false ∧ Instr.isSetkey g.instr = false

/-- The invariant: host memory in canonical form and inside the address space, every instance as `Engine.Inv` says,
commands in flight on instances that exist, and SETKEY alone on its instance. -/
structure State.Inv (s : State) : Prop where
  mem_wf : Memory.wf s.mem
  mem_within : Memory.within s.mem s.params.addrW
  engines : ∀ e ∈ s.engines, e.Inv
  inFlight : ∀ f ∈ s.inFlight, f.inst < s.engines.length
  setkeyAlone : s.SetkeyAlone

/-- What a host of the spec can do in a state: name instances and commands in flight that exist, reset an instance
between commands, and store inside the address space (R48, R61, R280). -/
def HostEvent.Legal (s : State) : HostEvent → Prop
  | .command inst _ => inst < s.engines.length
  | .issue inst _ => inst < s.engines.length
  | .complete k => k < s.inFlight.length
  | .resetInst inst => inst < s.engines.length ∧ s.busy inst = false
  | .hostStore a _ => a < 2 ^ s.params.addrW

/-- The next action of the host is one it can do. -/
def State.HostLegal (s : State) : Prop := ∀ ev rest, s.queue = ev :: rest → ev.Legal s

/-- The step answers a next state. -/
def State.Safe (s : State) : Prop := ∃ t, step s = .next t

/-- A run: any number of steps, each answering a next state. -/
inductive Run : State → State → Prop where
  | refl (s : State) : Run s s
  | snoc {s t u : State} (h : Run s t) (hstep : step t = .next u) : Run s u

/-- The instance that an action of the host acts on, if it acts on one. -/
def HostEvent.subject (s : State) : HostEvent → Option Nat
  | .command inst _ => some inst
  | .issue inst _ => some inst
  | .complete k => (s.inFlight[k]?).map InFlight.inst
  | .resetInst inst => some inst
  | .hostStore _ _ => none

/-- The command answered: the launch record is longer by this one response of the selected instance (R95). -/
def State.Answers (s t : State) (st : Status) (value : BitVec 8) : Prop :=
  t.responses = s.responses ++ [{ inst := s.target, status := st, value := value }]

/-- Nothing but the engines, host memory, the launch record and the counter of free values differs: the parameters, the
host's restrictions, the commands in flight, the queue and the port stand as they were. -/
structure State.SameSurroundings (s t : State) : Prop where
  params : t.params = s.params
  prot : t.prot = s.prot
  inFlight : t.inFlight = s.inFlight
  queue : t.queue = s.queue
  target : t.target = s.target
  disturbed : t.disturbed = s.disturbed

/-- Every instance but the selected one is unchanged, and there are as many (R48). -/
def State.OtherEnginesSame (s t : State) : Prop :=
  t.engines.length = s.engines.length ∧ ∀ n, n ≠ s.target → t.engines[n]? = s.engines[n]?

/-- The `n` octets at `a` can be read by a command, and are `v`. -/
def State.Holds (s : State) {n : Nat} (a : Nat) (v : Octets n) : Prop :=
  s.bufferReadable a n ∧ ∀ j : Fin n, Memory.get? s.mem (a + j) = some (v j)

/-- The command reads the octet at the address when it takes effect: its input block, or its key buffer where `klen` is
a key length (R72, R181). -/
def Instr.ReadsAt (i : Instr) (a : Nat) : Prop :=
  match i with
  | .setkey klen keyAddr => (klen = 16 ∨ klen = 24 ∨ klen = 32) ∧ keyAddr ≤ a ∧ a < keyAddr + klen.toNat
  | .encrypt inAddr _ => inAddr ≤ a ∧ a < inAddr + 16
  | .decrypt inAddr _ => inAddr ≤ a ∧ a < inAddr + 16
  | .keylen => False
  | .blklen => False

/-- The command writes the octet at the address when it takes effect: its output block (R72, R78). -/
def Instr.WritesAt (i : Instr) (a : Nat) : Prop :=
  match i with
  | .setkey _ _ => False
  | .encrypt _ outAddr => outAddr ≤ a ∧ a < outAddr + 16
  | .decrypt _ outAddr => outAddr ≤ a ∧ a < outAddr + 16
  | .keylen => False
  | .blklen => False

/-- The command reads or writes the octet at the address. -/
def Instr.Touches (i : Instr) (a : Nat) : Prop := Instr.ReadsAt i a ∨ Instr.WritesAt i a

/-- One of the two commands writes an octet that the other reads or writes (R81, R288). -/
def Instr.Clash (i j : Instr) : Prop :=
  ∃ a, (Instr.WritesAt i a ∧ Instr.Touches j a) ∨ (Instr.WritesAt j a ∧ Instr.Touches i a)

/-- The list `fs'` is `fs` with exactly the marks of the commands that `P` picks added (R288, log 8). -/
def MarkedWhere (P : Instr → Prop) (fs fs' : List InFlight) : Prop :=
  fs'.length = fs.length ∧ ∀ (n : Nat) (f : InFlight), fs[n]? = some f →
    ∃ f', fs'[n]? = some f' ∧ f'.inst = f.inst ∧ f'.instr = f.instr ∧
      (f'.disturbed = true ↔ f.disturbed = true ∨ P f.instr)

/-- The command can join those in flight on the instance: neither it nor one of them is a SETKEY (R82). -/
def State.MayJoin (s : State) (inst : Nat) (i : Instr) : Prop :=
  ∀ f ∈ s.inFlight, f.inst = inst → Instr.isSetkey i = false ∧ Instr.isSetkey f.instr = false

/-- The affine map of R122: `b ^ rotl8(b,1) ^ rotl8(b,2) ^ rotl8(b,3) ^ rotl8(b,4) ^ 0x63`. -/
def affine (b : Byte) : Byte :=
  b ^^^ b.rotateLeft 1 ^^^ b.rotateLeft 2 ^^^ b.rotateLeft 3 ^^^ b.rotateLeft 4 ^^^ 0x63

/-- `st[ro][c]`: the byte in row `ro` of column `c` (R68). -/
def stateByte (s : Columns) (ro c : Fin 4) : Byte := wordOctet (s.get c) ro

end Sys2Proof.Machine
end

