-- ==== Sys2Proof/WellFormed.lean ====
section
/-! DEFINITION. Well-formedness: the address operands of a command are `ADDR_W` bits wide (R91). Nothing else can be
ill-formed: `klen` has its 8 bits by type, and no alignment is asked of an address (R71). -/

namespace Sys2Proof

/-- An address fits in `ADDR_W` bits (R61, R91). -/
def addrFits (p : Params) (a : Nat) : Bool := decide (a < 2 ^ p.addrW)

/-- Every address operand of the command is one the port can carry (R91). -/
def Instr.wf (p : Params) : Instr → Bool
  | .setkey _ keyAddr => addrFits p keyAddr
  | .encrypt inAddr outAddr => addrFits p inAddr && addrFits p outAddr
  | .decrypt inAddr outAddr => addrFits p inAddr && addrFits p outAddr
  | .keylen => true
  | .blklen => true

/-- Both operands of the record are ones the port can carry (R91). -/
def Command.wf (p : Params) (c : Command) : Bool := addrFits p c.op0 && addrFits p c.op1

end Sys2Proof
end

