-- ==== Sys2Proof/Certificates/Slice0/Obligations.lean ====
section
/-! DEFINITION. The statements for the provers, from the numbered rules of the spec. Where a statement rests on a choice
of the model, its docstring names the log entry. -/

open Sys2Proof Sys2Proof.Machine

/-! ### Encoding -/

/-- Decoding what a well-formed command encodes to gives it back, with every operand at every value, and the record is
one the port can carry (R91, R97, R101; the positions are the spec's own, decision D2). -/
def Obligations.DecodeOfEncode : Prop :=
  ∀ (p : Params) (i : Instr), i.wf p = true → decode (encode i) = .ok i ∧ (encode i).wf p = true

/-- What decodes is what the encoder writes: the whole command word, bit by bit, and the operands the format has
(R91, R92). -/
def Obligations.EncodeOfDecode : Prop :=
  ∀ (c : Command) (i : Instr), decode c = .ok i → (encode i).cw = c.cw ∧
    (∀ klen a, i = .setkey klen a → klen = c.cw.extractLsb' 0 8 ∧ a = c.op0) ∧
    (∀ a b, i = .encrypt a b ∨ i = .decrypt a b → a = c.op0 ∧ b = c.op1)

/-- The opcode map and nothing else decides: a command word selects a row of R97 exactly when it decodes to that row's
command, so at most one row, and it is illegal exactly when no row matches (R97, R98). -/
def Obligations.DecodeFollowsOpcodeMap : Prop :=
  ∀ c : Command,
    (∀ i, decode c = .ok i → ∀ r ∈ opcodeMap, (r.selects c.cw = true ↔ r.mnemonic = i.mnemonic)) ∧
    ((∃ err, decode c = .error err) ↔ ∀ r ∈ opcodeMap, r.selects c.cw = false)

/-- Operands that a format marks absent are ignored, and every value of `klen` is a legal encoding (R99). -/
def Obligations.AbsentOperandsIgnored : Prop :=
  ∀ (klen : BitVec 8) (a b : Nat),
    decode { cw := 0x10000000 ||| klen.setWidth 32, op0 := a, op1 := b } = .ok (.setkey klen a) ∧
    decode { cw := 0x20000000, op0 := a, op1 := b } = .ok (.encrypt a b) ∧
    decode { cw := 0x30000000, op0 := a, op1 := b } = .ok (.decrypt a b) ∧
    decode { cw := 0x40000000, op0 := a, op1 := b } = .ok .keylen ∧
    decode { cw := 0x50000000, op0 := a, op1 := b } = .ok .blklen

/-- Words written out from R97, R98 and R101, with what each decodes to. -/
def Obligations.DecodeOfWrittenWords : Prop :=
  decodeTableWord 32 0b00010000000000000000000000011000 = some (.setkey 24 0) ∧
  decodeTableWord 32 0b00010000000000000000000000001111 = some (.setkey 15 0) ∧
  decodeTableWord 32 0b00100000000000000000000000000000 = some (.encrypt 0 0) ∧
  decodeTableWord 32 0b00110000000000000000000000000000 = some (.decrypt 0 0) ∧
  decodeTableWord 32 0b01000000000000000000000000000000 = some .keylen ∧
  decodeTableWord 32 0b01010000000000000000000000000000 = some .blklen ∧
  decodeTableWord 32 0b00010000000000000000000100010000 = none ∧
  decodeTableWord 32 0b00100000000000000000000000000001 = none ∧
  decodeTableWord 32 0b00000000000000000000000000000000 = none ∧
  decodeTableWord 32 0b01100000000000000000000000000000 = none ∧
  decodeTableWord 32 0b11111111111111111111111111111111 = none

/-! ### Reset and the steps of the host -/

/-- After reset an instance is unkeyed, its backend is `software`, and `variant`, `W` and `Winv` hold no value (R50,
R281); the machine starts with instances in that state only, nothing issued and no octet of host memory listed (the
last three: log 2 and 3). -/
def Obligations.ResetLeavesNoKey : Prop :=
  State.reset.engines = [Engine.reset] ∧ Engine.reset.keyed = false ∧ Engine.reset.key = none ∧
    Engine.reset.backend = .software ∧ State.reset.mem = [] ∧ State.reset.queue = [] ∧ State.reset.inFlight = [] ∧
    State.reset.responses = []

/-- A command that may join what is in flight is one atomic transition: `exec` of what its record decodes to, on the
instance it names, with the action taken from the queue (R10, R40, R80). It runs as disturbed exactly when it clashes
with a command in flight, and exactly the commands it clashes with are marked (R81, R288; log 8 and 14): with no clash
it runs undisturbed and nothing in flight changes. -/
def Obligations.StepRunsDecodedCommand : Prop :=
  ∀ (s : State) (inst : Nat) (c : Command) (i : Instr) (rest : List HostEvent),
    s.queue = .command inst c :: rest → inst < s.engines.length → decode c = .ok i → s.MayJoin inst i →
    ∃ fs d, MarkedWhere (Instr.Clash i) s.inFlight fs ∧ (d = true ↔ ∃ f ∈ s.inFlight, Instr.Clash i f.instr) ∧
      ((∀ f ∈ s.inFlight, ¬ Instr.Clash i f.instr) → fs = s.inFlight ∧ d = false) ∧
      step s = exec i { s with queue := rest, target := inst, inFlight := fs, disturbed := d }

/-- The word placed for fetching is the next command: a step from that state runs exactly what it decodes to. -/
def Obligations.StepRunsFetchedWord : Prop :=
  ∀ (s : State) (nbits w : Nat) (i : Instr), s.target < s.engines.length → decodeTableWord nbits w = some i →
    step (s.withFetchWord nbits w) = exec i { s with inFlight := [], disturbed := false }

/-- An illegal command word is answered `(IllegalCommand, 0)`: no engine and no octet of memory changes (R98, R254). -/
def Obligations.IllegalWordAnswered : Prop :=
  ∀ (s : State) (inst : Nat) (c : Command) (err : DecodeError) (rest : List HostEvent),
    s.queue = .command inst c :: rest ∨ s.queue = .issue inst c :: rest → inst < s.engines.length →
    decode c = .error err →
    ∃ t, step s = .next t ∧ t.engines = s.engines ∧ t.mem = s.mem ∧ t.params = s.params ∧ t.prot = s.prot ∧
      t.queue = rest ∧ t.inFlight = s.inFlight ∧ t.freeIdx = s.freeIdx ∧
      t.responses = s.responses ++ [{ inst := inst, status := .illegalCommand, value := 0 }]

/-- The other steps of the port: with nothing to do the block keeps its state (R40, R268); a command issued without
waiting stays in flight, with no effect yet (R81), marked exactly when it clashes with a command in flight, and exactly
the commands it clashes with are marked (R288); a command in flight takes effect, all at once, when it completes (R10,
R80), as disturbed exactly when it is marked. How commands overlap in the model is log 14, the marks are log 8. -/
def Obligations.IdleIssueAndComplete : Prop :=
  ∀ (s : State) (rest : List HostEvent),
    (s.queue = [] → step s = .next s) ∧
    (∀ (inst : Nat) (c : Command) (i : Instr), s.queue = .issue inst c :: rest → inst < s.engines.length →
      decode c = .ok i → s.MayJoin inst i →
      ∃ fs d, MarkedWhere (Instr.Clash i) s.inFlight fs ∧ (d = true ↔ ∃ f ∈ s.inFlight, Instr.Clash i f.instr) ∧
        step s = .next { s with
          queue := rest, inFlight := fs ++ [{ inst := inst, instr := i, disturbed := d }] }) ∧
    (∀ (k : Nat) (f : InFlight), s.queue = .complete k :: rest → s.inFlight[k]? = some f →
      step s = exec f.instr { s with
        queue := rest, inFlight := s.inFlight.eraseIdx k, target := f.inst, disturbed := f.disturbed })

/-- A reset between commands leaves the instance unkeyed with backend `software`, and touches no other instance and no
octet of memory; a reset of an instance with a command in flight stops the machine (R280, R281). -/
def Obligations.ResetEventBetweenCommands : Prop :=
  ∀ (s : State) (inst : Nat) (rest : List HostEvent), s.queue = .resetInst inst :: rest → inst < s.engines.length →
    (s.busy inst = true → step s = .fault .resetDuringCommand) ∧
    (s.busy inst = false → ∃ t e, step s = .next t ∧ t.engines[inst]? = some e ∧ e.keyed = false ∧
      e.backend = .software ∧ (∀ n, n ≠ inst → t.engines[n]? = s.engines[n]?) ∧ t.mem = s.mem ∧
      t.responses = s.responses ∧ t.queue = rest)

/-- The host places an octet at any address of the address space: that address reads as it, every other reads as before
(R43, R61), exactly the commands in flight that read or write that address are marked as disturbed (R288, U6; the marks
are log 8), and nothing else changes. That an address which held no octet holds one from then on is the model's choice
(log 19). -/
def Obligations.HostStorePlacesOctet : Prop :=
  ∀ (s : State) (a : Nat) (v : Byte) (rest : List HostEvent), s.queue = .hostStore a v :: rest →
    a < 2 ^ s.params.addrW →
    ∃ m fs, (∀ b, Memory.get? m b = if b = a then some v else Memory.get? s.mem b) ∧
      MarkedWhere (fun i => Instr.Touches i a) s.inFlight fs ∧
      step s = .next { s with queue := rest, mem := m, inFlight := fs }

/-! ### SETKEY -/

/-- SETKEY with a key of 16, 24 or 32 octets in a readable buffer completes: the instance holds the expansion of those
octets, the answer is `(OK, 0)`, and nothing else changes but `temp`, whose content is unspecified (R180, R187, R32). -/
def Obligations.SetkeyCommitsExpandedKey : Prop :=
  ∀ (s : State) (e : Engine) (klen : BitVec 8) (keyAddr : Nat) (v : Variant) (key : Octets v.keyLength),
    s.engine? = some e → klen.toNat = v.keyLength → s.disturbed = false → s.Holds keyAddr key →
    ∃ t e', exec (.setkey klen keyAddr) s = .next t ∧ t.engine? = some e' ∧ e'.key = some (expandKey v key) ∧
      e'.keyed = true ∧ e'.backend = e.backend ∧ e'.s = e.s ∧ e'.t = e.t ∧ t.mem = s.mem ∧ s.Answers t .ok 0 ∧
      s.OtherEnginesSame t ∧ s.SameSurroundings t

/-- SETKEY with any other length answers `(InvalidKeyLength, 0)` whatever host memory holds or the buffer's address is;
an unkeyed instance stays as it is, a keyed one is treated as `SETKEY_FAIL_POLICY` says, and nothing else changes (R181,
R189, R251, R257). -/
def Obligations.SetkeyRejectsOtherLengths : Prop :=
  ∀ (s : State) (e : Engine) (klen : BitVec 8) (keyAddr : Nat),
    s.engine? = some e → klen ≠ 16 → klen ≠ 24 → klen ≠ 32 →
    ∃ t, exec (.setkey klen keyAddr) s = .next t ∧ s.Answers t .invalidKeyLength 0 ∧ t.mem = s.mem ∧
      s.OtherEnginesSame t ∧ s.SameSurroundings t ∧ (e.key = none → t.engines = s.engines) ∧
      (s.params.setkeyFailPolicy = .preserve → t.engines = s.engines) ∧
      (s.params.setkeyFailPolicy = .invalidate → t.engine? = some { e with key := none })

/-- SETKEY of a legal length whose buffer has an octet that may not be read answers `(BufferFault, 0)`, with the same
treatment of the instance and no other change (R189, R253). -/
def Obligations.SetkeyBufferFault : Prop :=
  ∀ (s : State) (e : Engine) (klen : BitVec 8) (keyAddr : Nat) (v : Variant) (j : Nat),
    s.engine? = some e → klen.toNat = v.keyLength → j < v.keyLength → s.readable (keyAddr + j) = false →
    ∃ t, exec (.setkey klen keyAddr) s = .next t ∧ s.Answers t .bufferFault 0 ∧ t.mem = s.mem ∧
      s.OtherEnginesSame t ∧ s.SameSurroundings t ∧ (e.key = none → t.engines = s.engines) ∧
      (s.params.setkeyFailPolicy = .preserve → t.engines = s.engines) ∧
      (s.params.setkeyFailPolicy = .invalidate → t.engine? = some { e with key := none })

/-- The first Nk words of the schedule are the key, four octets a word, most significant first (R183, R69). -/
def Obligations.ForwardScheduleStartsWithKey : Prop :=
  ∀ (v : Variant) (key : Octets v.keyLength) (i : Nat) (h : 4 * i + 3 < v.keyLength),
    (expandKey v key).W[i]? = some (mkWord (key ⟨4 * i, by omega⟩) (key ⟨4 * i + 1, by omega⟩)
      (key ⟨4 * i + 2, by omega⟩) (key ⟨4 * i + 3, h⟩))

/-- The recurrence of the forward schedule, at every index from Nk to the end: `W[i] = W[i-Nk] ^ temp`, where `temp` is
`W[i-1]`, or its transform at the multiples of Nk, or its SubWord at the indices 4 above them for AES-256 (R184). -/
def Obligations.ForwardScheduleRecurrence : Prop :=
  ∀ (v : Variant) (key : Octets v.keyLength) (i : Nat), v.nk ≤ i → i < 4 * (v.nr + 1) →
    ∃ old prev temp, (expandKey v key).W[i - v.nk]? = some old ∧ (expandKey v key).W[i - 1]? = some prev ∧
      (expandKey v key).W[i]? = some (old ^^^ temp) ∧
      (i % v.nk = 0 → ∃ j : RconIndex, j.val = i / v.nk ∧ temp = subWord (rotWord prev) ^^^ rcon j) ∧
      (v.nk = 8 ∧ i % v.nk = 4 → temp = subWord prev) ∧
      (i % v.nk ≠ 0 ∧ ¬ (v.nk = 8 ∧ i % v.nk = 4) → temp = prev)

/-- `Rcon` is defined at the indices 1 to 10 and no other (R132): `Rcon[1] = 0x01000000`, `Rcon[i+1]` is
`xtime(byte3(Rcon[i])) << 24`, bits 23 to 0 are zero (R130), and the key expansion reads no other index (R131). -/
def Obligations.RconPowersOfX : Prop :=
  (∀ j : Nat, (∃ r : RconIndex, r.val = j) ↔ 1 ≤ j ∧ j ≤ 10) ∧
  (∀ r : RconIndex, (r.val = 1 → rcon r = 0x01000000) ∧ (rcon r).extractLsb' 0 24 = 0 ∧
    ∀ q : RconIndex, q.val = r.val + 1 → rcon q = (xtime (byte3 (rcon r))).setWidth 32 <<< 24) ∧
  (∀ (v : Variant) (i : Nat), v.nk ≤ i → i < 4 * (v.nr + 1) → i % v.nk = 0 → 1 ≤ i / v.nk ∧ i / v.nk ≤ 10)

/-- The inverse schedule: rounds 0 and Nr as in the forward schedule, FastInvMixColumn of the forward word at the same
index in every round between (R186). -/
def Obligations.InverseScheduleWords : Prop :=
  ∀ (v : Variant) (key : Octets v.keyLength) (i : Nat), i < 4 * (v.nr + 1) →
    ∃ w, (expandKey v key).W[i]? = some w ∧
      (i ≤ 3 ∨ 4 * v.nr ≤ i → (expandKey v key).Winv[i]? = some w) ∧
      (4 ≤ i ∧ i ≤ 4 * v.nr - 1 → (expandKey v key).Winv[i]? = some (fastInvMixColumn w))

/-- Both schedules have exactly 44, 52 or 60 words (R11, R35, R36). -/
def Obligations.ScheduleLengths : Prop :=
  ∀ (v : Variant) (key : Octets v.keyLength),
    (expandKey v key).W.length = 4 * (v.nr + 1) ∧ (expandKey v key).Winv.length = 4 * (v.nr + 1) ∧
    (v = .aes128 → v.keyLength = 16 ∧ v.nr = 10) ∧ (v = .aes192 → v.keyLength = 24 ∧ v.nr = 12) ∧
    (v = .aes256 → v.keyLength = 32 ∧ v.nr = 14)

/-- SETKEY on an instance that holds any key leaves what SETKEY with the same operands leaves on the instance right
after a reset, when it succeeds there (R188, R282). -/
def Obligations.RekeyEqualsFreshConstruction : Prop :=
  ∀ (s t u : State) (klen : BitVec 8) (keyAddr : Nat), s.target < s.engines.length →
    exec (.setkey klen keyAddr) { s with engines := s.engines.set s.target Engine.reset } = .next t →
    s.Answers t .ok 0 → exec (.setkey klen keyAddr) s = .next u →
    s.Answers u .ok 0 ∧ ∃ e e', t.engine? = some e ∧ u.engine? = some e' ∧ e.keyed = true ∧ e'.key = e.key

/-! ### ENCRYPT and DECRYPT -/

/-- The rounds of ENCRYPT, written out: there are states `x 0 .. x Nr` such that `x 0` is the input with the words 0 to 3
added, each middle round takes all four columns from the state before it, the last round uses the S-box alone, and the
output is `x Nr`, most significant byte of column 0 first (R202 to R206). -/
def Obligations.EncryptRounds : Prop :=
  ∀ (k : KeyState) (block : Octets 16), ∃ x : Nat → Columns,
    (∀ c : Fin 4, (x 0).get c = loadWord block c (by omega) ^^^ schedWord k.W c) ∧
    (∀ r, 1 ≤ r → r ≤ k.variant.nr - 1 → ∀ c : Fin 4,
      (x r).get c = mixColShiftRow c (x (r - 1)) ^^^ schedWord k.W (4 * r + c)) ∧
    (∀ c : Fin 4, (x k.variant.nr).get c =
      subBytesShiftRows c (x (k.variant.nr - 1)) ^^^ schedWord k.W (4 * k.variant.nr + c)) ∧
    (∀ (c : Fin 4) (j : Fin 4), encryptBlock k block ⟨4 * c + j, by omega⟩ = wordOctet ((x k.variant.nr).get c) j)

/-- The rounds of DECRYPT, written out: round 0 adds the words `Winv[4Nr..4Nr+3]`, the middle rounds run from Nr-1 down
to 1 with the Dec tables and the words of that round, and the final round adds `Winv[0..3]` (R217 to R221). -/
def Obligations.DecryptRounds : Prop :=
  ∀ (k : KeyState) (block : Octets 16), ∃ x : Nat → Columns, ∃ last : Columns,
    (∀ c : Fin 4, (x k.variant.nr).get c = loadWord block c (by omega) ^^^ schedWord k.Winv (4 * k.variant.nr + c)) ∧
    (∀ r, 1 ≤ r → r ≤ k.variant.nr - 1 → ∀ c : Fin 4,
      (x r).get c = invMixColShiftRow c (x (r + 1)) ^^^ schedWord k.Winv (4 * r + c)) ∧
    (∀ c : Fin 4, last.get c = invSubBytesShiftRows c (x 1) ^^^ schedWord k.Winv c) ∧
    (∀ (c : Fin 4) (j : Fin 4), decryptBlock k block ⟨4 * c + j, by omega⟩ = wordOctet (last.get c) j)

/-- Decryption undoes encryption, for every key of every variant and every block (R209, R223, R46 d). -/
def Obligations.DecryptOfEncrypt : Prop :=
  ∀ (v : Variant) (key : Octets v.keyLength) (block : Octets 16),
    decryptBlock (expandKey v key) (encryptBlock (expandKey v key) block) = block

/-- Encryption undoes decryption, so that both are bijections on blocks (R209, R46 d). -/
def Obligations.EncryptOfDecrypt : Prop :=
  ∀ (v : Variant) (key : Octets v.keyLength),
    (∀ block : Octets 16, encryptBlock (expandKey v key) (decryptBlock (expandKey v key) block) = block) ∧
    Function.Bijective (encryptBlock (expandKey v key)) ∧ Function.Bijective (decryptBlock (expandKey v key))

/-- The octets of a number, most significant first: a hex string read left to right (R67). -/
def hexOctets (n : Nat) (x : Nat) : Octets n := fun j => BitVec.ofNat 8 (x >>> (8 * (n - 1 - j)))

/-- The three FIPS 197 vectors of the source, encrypted and decrypted (spec/95_test_vectors.md section 1.1). -/
def Obligations.KnownAnswers : Prop :=
  let p := hexOctets 16 0x00112233445566778899aabbccddeeff
  let k128 := expandKey .aes128 (hexOctets _ 0x000102030405060708090a0b0c0d0e0f)
  let k192 := expandKey .aes192 (hexOctets _ 0x000102030405060708090a0b0c0d0e0f1011121314151617)
  let k256 := expandKey .aes256 (hexOctets _ 0x000102030405060708090a0b0c0d0e0f101112131415161718191a1b1c1d1e1f)
  encryptBlock k128 p = hexOctets 16 0x69c4e0d86a7b0430d8cdb78070b4c55a ∧
  encryptBlock k192 p = hexOctets 16 0xdda97ca4864cdfe06eaf70a0ec0d7191 ∧
  encryptBlock k256 p = hexOctets 16 0x8ea2b7ca516745bfeafc49904b496089 ∧
  decryptBlock k128 (hexOctets 16 0x69c4e0d86a7b0430d8cdb78070b4c55a) = p ∧
  decryptBlock k192 (hexOctets 16 0xdda97ca4864cdfe06eaf70a0ec0d7191) = p ∧
  decryptBlock k256 (hexOctets 16 0x8ea2b7ca516745bfeafc49904b496089) = p

/-- ENCRYPT and DECRYPT complete on a keyed instance with a readable input and a writable output block, aligned or not
and overlapping or not, as long as the one schedule the command reads, W or Winv, has its words: the 16 octets at
`out_addr` are the input's, encrypted or decrypted, every other octet is as it was, the answer is `(OK, 0)`, and no
engine state changes but the working registers, whose content is unspecified (R200, R215, R206, R207, R222, R30, R31,
R71). -/
def Obligations.CipherCompletes : Prop :=
  ∀ (s : State) (e : Engine) (k : KeyState) (inAddr outAddr : Nat) (block : Octets 16),
    s.engine? = some e → e.key = some k → s.disturbed = false → s.Holds inAddr block → s.bufferWritable outAddr 16 →
    ∀ (i : Instr) (result : Octets 16),
      (i = .encrypt inAddr outAddr ∧ 4 * (k.variant.nr + 1) ≤ k.W.length ∧ result = encryptBlock k block) ∨
      (i = .decrypt inAddr outAddr ∧ 4 * (k.variant.nr + 1) ≤ k.Winv.length ∧ result = decryptBlock k block) →
      ∃ t e', exec i s = .next t ∧ (∀ j : Fin 16, Memory.get? t.mem (outAddr + j) = some (result j)) ∧
        (∀ a, a < outAddr ∨ outAddr + 16 ≤ a → Memory.get? t.mem a = Memory.get? s.mem a) ∧
        t.engine? = some e' ∧ e'.key = e.key ∧ e'.backend = e.backend ∧ e'.temp = e.temp ∧ s.Answers t .ok 0 ∧
        s.OtherEnginesSame t ∧ s.SameSurroundings t

/-- The machine decrypts what it encrypted: from any state that meets the invariant, ENCRYPT from `a` to `b` and then
DECRYPT from `b` to `c` leave at `c` the octets that stood at `a`, whatever the three buffers overlap (R46 d, R77,
R209). -/
def Obligations.MachineRoundTrip : Prop :=
  ∀ (s : State) (e : Engine) (a b c : Nat) (block : Octets 16), s.Inv → s.engine? = some e → e.keyed = true →
    s.disturbed = false → s.Holds a block → s.bufferReadable b 16 → s.bufferWritable b 16 → s.bufferWritable c 16 →
    ∃ t u, exec (.encrypt a b) s = .next t ∧ exec (.decrypt b c) t = .next u ∧
      ∀ j : Fin 16, Memory.get? u.mem (c + j) = some (block j)

/-- Aliasing: the 16 octets a command writes do not depend on where the output buffer lies, over the input buffer or
not (R77, R208, R222). -/
def Obligations.AliasingSameOctets : Prop :=
  ∀ (s t u : State) (a b b' : Nat),
    (exec (.encrypt a b) s = .next t ∧ exec (.encrypt a b') s = .next u) ∨
      (exec (.decrypt a b) s = .next t ∧ exec (.decrypt a b') s = .next u) →
    s.Answers t .ok 0 → s.Answers u .ok 0 →
    ∀ j : Fin 16, Memory.get? t.mem (b + j) = Memory.get? u.mem (b' + j)

/-- ENCRYPT, DECRYPT and KEYLEN on an instance without a key answer `(NotKeyed, 0)` before any access: no octet and no
engine state changes (R201, R216, R230, R252). -/
def Obligations.NotKeyedAnswered : Prop :=
  ∀ (s : State) (e : Engine) (a b : Nat), s.engine? = some e → e.keyed = false →
    ∀ i, i = .encrypt a b ∨ i = .decrypt a b ∨ i = .keylen →
      ∃ t, exec i s = .next t ∧ s.Answers t .notKeyed 0 ∧ t.mem = s.mem ∧ t.engines = s.engines ∧
        s.SameSurroundings t

/-- ENCRYPT and DECRYPT on a keyed instance with an octet of the input that may not be read, or one of the output that
may not be written, answer `(BufferFault, 0)`: no octet and no engine state changes (R253, R257). -/
def Obligations.CipherBufferFault : Prop :=
  ∀ (s : State) (e : Engine) (a b j : Nat), s.engine? = some e → e.keyed = true → j < 16 →
    s.readable (a + j) = false ∨ s.writable (b + j) = false →
    ∀ i, i = .encrypt a b ∨ i = .decrypt a b →
      ∃ t, exec i s = .next t ∧ s.Answers t .bufferFault 0 ∧ t.mem = s.mem ∧ t.engines = s.engines ∧
        s.SameSurroundings t

/-- Address arithmetic does not wrap: a command with a buffer whose last octet would lie beyond `2^ADDR_W - 1` answers
`BufferFault`, whatever stands in memory (R63). -/
def Obligations.BufferPastTopFaults : Prop :=
  ∀ (s : State) (e : Engine) (a b : Nat) (klen : BitVec 8) (v : Variant), s.engine? = some e →
    (klen.toNat = v.keyLength → 2 ^ s.params.addrW < a + v.keyLength →
      ∃ t, exec (.setkey klen a) s = .next t ∧ s.Answers t .bufferFault 0 ∧ t.mem = s.mem) ∧
    (e.keyed = true → 2 ^ s.params.addrW < a + 16 ∨ 2 ^ s.params.addrW < b + 16 →
      ∀ i, i = .encrypt a b ∨ i = .decrypt a b →
        ∃ t, exec i s = .next t ∧ s.Answers t .bufferFault 0 ∧ t.mem = s.mem)

/-! ### KEYLEN and BLKLEN -/

/-- KEYLEN on a keyed instance answers `(OK, 16)`, `(OK, 24)` or `(OK, 32)` by the variant, on an unkeyed one
`(NotKeyed, 0)`; no memory is accessed and no state modified (R230). -/
def Obligations.KeylenAnswers : Prop :=
  decode { cw := 0x40000000, op0 := 0, op1 := 0 } = .ok .keylen ∧
  ∀ (s : State) (e : Engine), s.engine? = some e →
    ∃ t, exec .keylen s = .next t ∧ t.engines = s.engines ∧ t.mem = s.mem ∧ t.freeIdx = s.freeIdx ∧
      s.SameSurroundings t ∧ (e.key = none → s.Answers t .notKeyed 0) ∧
      (∀ k, e.key = some k →
        (k.variant = .aes128 → s.Answers t .ok 16) ∧ (k.variant = .aes192 → s.Answers t .ok 24) ∧
        (k.variant = .aes256 → s.Answers t .ok 32))

/-- BLKLEN answers `(OK, 16)`, keyed or not; no memory is accessed and no state modified (R231). -/
def Obligations.BlklenAnswers : Prop :=
  decode { cw := 0x50000000, op0 := 0, op1 := 0 } = .ok .blklen ∧
  ∀ (s : State) (e : Engine), s.engine? = some e →
    ∃ t, exec .blklen s = .next t ∧ t.engines = s.engines ∧ t.mem = s.mem ∧ t.freeIdx = s.freeIdx ∧
      s.SameSurroundings t ∧ s.Answers t .ok 16

/-- After a SETKEY that succeeds, KEYLEN reports the key length given to it (R230, R47). -/
def Obligations.KeylenReportsLastKey : Prop :=
  ∀ (s t : State) (klen : BitVec 8) (keyAddr : Nat), exec (.setkey klen keyAddr) s = .next t → s.Answers t .ok 0 →
    ∃ u, exec .keylen t = .next u ∧ t.Answers u .ok klen

/-! ### Frames and responses -/

/-- ENCRYPT, DECRYPT, KEYLEN and BLKLEN never write the variant, a schedule, the backend or `temp` of any instance, and
the two queries write no engine at all (R33, R207, R222, R232). -/
def Obligations.ConstCommandsKeepKeys : Prop :=
  ∀ (i : Instr) (s t : State), Instr.isSetkey i = false → exec i s = .next t →
    s.OtherEnginesSame t ∧ s.SameSurroundings t ∧
    (∀ (n : Nat) (e' : Engine), t.engines[n]? = some e' → ∃ e, s.engines[n]? = some e ∧ e'.key = e.key ∧ e'.backend = e.backend ∧
      e'.temp = e.temp) ∧
    (i = .keylen ∨ i = .blklen → t.engines = s.engines ∧ t.mem = s.mem)

/-- SETKEY never writes host memory, another instance, the backend, `s` or `t` of its own, and writes only `variant`,
`W`, `Winv` and `temp` (R49, R78). -/
def Obligations.SetkeyFrame : Prop :=
  ∀ (klen : BitVec 8) (keyAddr : Nat) (s t : State), exec (.setkey klen keyAddr) s = .next t →
    t.mem = s.mem ∧ s.OtherEnginesSame t ∧ s.SameSurroundings t ∧
    ∃ e e', s.engine? = some e ∧ t.engine? = some e' ∧ e'.backend = e.backend ∧ e'.s = e.s ∧ e'.t = e.t

/-- Every octet outside the output buffer of the command, as its operands give it, reads as before; SETKEY and the
queries have no output buffer, and change no octet (R65, R72, R206). -/
def Obligations.OnlyOutputBlockWritten : Prop :=
  ∀ (i : Instr) (s t : State) (a : Nat), exec i s = .next t →
    ¬ Instr.WritesAt i a → Memory.get? t.mem a = Memory.get? s.mem a

/-- A command whose status is not OK has written no octet, and has changed no engine state unless it is a failed SETKEY
under the policy `invalidate` (R65, R189, R258). -/
def Obligations.FaultWritesNothing : Prop :=
  ∀ (i : Instr) (s t : State) (st : Status) (value : BitVec 8), exec i s = .next t → s.Answers t st value →
    st ≠ .ok → t.mem = s.mem ∧ value = 0 ∧
      (Instr.isSetkey i = false ∨ s.params.setkeyFailPolicy = .preserve → t.engines = s.engines)

/-- Every command that ends gives exactly one response; its value is 0 but for KEYLEN and BLKLEN; InvalidKeyLength comes
from SETKEY only, NotKeyed not from SETKEY or BLKLEN, BufferFault not from a query, and IllegalCommand and
ConcurrentRekey from no command that runs (R95, R250 to R255, R261). -/
def Obligations.OneResponseOfItsOwnKind : Prop :=
  ∀ (i : Instr) (s t : State), exec i s = .next t → ∃ st value, s.Answers t st value ∧
    (i ≠ .keylen ∧ i ≠ .blklen → value = 0) ∧
    (st = .invalidKeyLength → Instr.isSetkey i = true) ∧
    (st = .notKeyed → Instr.isSetkey i = false ∧ i ≠ .blklen) ∧
    (st = .bufferFault → i ≠ .keylen ∧ i ≠ .blklen) ∧
    st ≠ .illegalCommand ∧ st ≠ .concurrentRekey

/-- The status codes of R96 are 0 to 5, in this order and each its own, and the codes 6 to 15 are no status's. -/
def Obligations.StatusCodesDistinct : Prop :=
  Status.code .ok = 0 ∧ Status.code .invalidKeyLength = 1 ∧ Status.code .notKeyed = 2 ∧
  Status.code .bufferFault = 3 ∧ Status.code .illegalCommand = 4 ∧ Status.code .concurrentRekey = 5 ∧
  ∀ st : Status, (Status.code st).toNat ≤ 5

/-! ### The machine as a whole -/

/-- Every step keeps the invariant: memory canonical and inside the address space, backends `software`, the schedules of
every keyed instance the expansion of some key, SETKEY alone on its instance (R37, R46, R61, R82). -/
def Obligations.StepKeepsInvariant : Prop :=
  ∀ s t : State, s.Inv → step s = .next t → t.Inv

/-- The state after reset meets the invariant. -/
def Obligations.ResetMeetsInvariant : Prop := State.reset.Inv

/-- As long as the host does what a host can do, no step stops: every command completes, whatever its operands, and what
faults it has are responses (R259, R296; the host's part is log 9). -/
def Obligations.LegalHostNeverStops : Prop :=
  ∀ s : State, s.Inv → s.HostLegal → s.Safe

/-- Every command completes on every instance that meets the invariant, with any operands (R296). -/
def Obligations.CommandsComplete : Prop :=
  ∀ (s : State) (i : Instr), (∀ e ∈ s.engines, e.Inv) → s.target < s.engines.length → ∃ t, exec i s = .next t

/-- Instances never interact: a step that acts on one instance leaves every other as it was (R48, R266). -/
def Obligations.InstancesIndependent : Prop :=
  ∀ (s t : State) (ev : HostEvent) (rest : List HostEvent) (n : Nat), s.queue = ev :: rest → step s = .next t →
    ev.subject s ≠ some n → t.engines[n]? = s.engines[n]?

/-- No run changes the open parameters, the host's restrictions of its memory, or how many instances there are, and no
run takes a response back (R13, R39, R253). -/
def Obligations.RunKeepsLaunchParameters : Prop :=
  ∀ s t : State, Run s t → t.params = s.params ∧ t.prot = s.prot ∧ t.engines.length = s.engines.length ∧
    s.responses <+: t.responses

/-- For a host that issues only legal words, to a keyed instance (or SETKEY and BLKLEN), with accessible buffers and one
command at a time, the only status other than OK is InvalidKeyLength (spec/90_conflicts.md C7). -/
def Obligations.OnlyInvalidKeyLength : Prop :=
  ∀ (s t : State) (e : Engine) (i : Instr) (st : Status) (value : BitVec 8), s.engine? = some e →
    (e.keyed = true ∨ Instr.isSetkey i = true ∨ i = .blklen) →
    (∀ a, Instr.ReadsAt i a → s.readable a = true) → (∀ a, Instr.WritesAt i a → s.writable a = true) →
    exec i s = .next t → s.Answers t st value → st = .ok ∨ st = .invalidKeyLength

/-! ### Commands in flight together -/

/-- A command issued so that a SETKEY and another command would be in flight together on one instance: it and every
command in flight on that instance end with `(ConcurrentRekey, 0)` and the instance is unkeyed (R255, R257). Nothing
else changes but the instance's working registers and the counter of free values. R255 speaks of two commands: that all
of them end at once, more than two and queries too, and that none has written an octet, is log 15 (DEDUCED). -/
def Obligations.ConcurrentRekeyUnkeys : Prop :=
  ∀ (s : State) (inst : Nat) (e : Engine) (c : Command) (i : Instr) (rest : List HostEvent),
    s.queue = .command inst c :: rest ∨ s.queue = .issue inst c :: rest → s.engines[inst]? = some e →
    decode c = .ok i →
    (∃ f ∈ s.inFlight, f.inst = inst ∧ (Instr.isSetkey i = true ∨ Instr.isSetkey f.instr = true)) →
    ∃ t e', step s = .next t ∧ t.engines[inst]? = some e' ∧ e'.keyed = false ∧ e'.key = none ∧
      e'.backend = e.backend ∧ t.engines.length = s.engines.length ∧
      (∀ n, n ≠ inst → t.engines[n]? = s.engines[n]?) ∧ t.mem = s.mem ∧ t.params = s.params ∧ t.prot = s.prot ∧
      t.target = s.target ∧ t.disturbed = s.disturbed ∧ t.queue = rest ∧
      t.inFlight = s.inFlight.filter (fun f => f.inst ≠ inst) ∧
      t.responses = s.responses ++ List.replicate ((s.inFlight.filter (fun f => f.inst = inst)).length + 1)
        { inst := inst, status := .concurrentRekey, value := 0 }

/-- With one command at a time ConcurrentRekey is never returned (R82, R255): a step with nothing in flight gives no such
response. -/
def Obligations.AtomicNeverConcurrentRekey : Prop :=
  ∀ s t : State, s.inFlight = [] → step s = .next t →
    ∀ r, r ∈ t.responses.drop s.responses.length → r.status ≠ .concurrentRekey

/-- ENCRYPT and DECRYPT commands whose buffers do not clash can take effect in either order, on one instance or on two:
both complete in both orders with the same host memory, and the same keys on every instance (R80, R81, R207). -/
def Obligations.ConcurrentCiphersCommute : Prop :=
  ∀ (s : State) (m n : Nat) (i j : Instr), s.Inv → m < s.engines.length → n < s.engines.length →
    Instr.isSetkey i = false → Instr.isSetkey j = false → ¬ Instr.Clash i j →
    ∃ t t' u u', exec i (s.select m false) = .next t ∧ exec j (t.select n false) = .next t' ∧
      exec j (s.select n false) = .next u ∧ exec i (u.select m false) = .next u' ∧ t'.mem = u'.mem ∧
      t'.engines.map Engine.key = u'.engines.map Engine.key

/-- A command whose buffers another agent touched reads octets of which nothing is known (R288, U6): what ENCRYPT and
DECRYPT write then is free values, encrypted or decrypted, and what SETKEY expands is free values (log 8). -/
def Obligations.DisturbedOctetsFree : Prop :=
  ∀ (s : State) (e : Engine) (a b : Nat), s.engine? = some e → s.disturbed = true →
    (∀ (k : KeyState) (i : Instr) (result : Octets 16), e.key = some k → s.bufferReadable a 16 → s.bufferWritable b 16 →
      (i = .encrypt a b ∧ 4 * (k.variant.nr + 1) ≤ k.W.length ∧
          result = encryptBlock k (fun n => Config.freeOctet (s.freeIdx + n))) ∨
        (i = .decrypt a b ∧ 4 * (k.variant.nr + 1) ≤ k.Winv.length ∧
          result = decryptBlock k (fun n => Config.freeOctet (s.freeIdx + n))) →
      ∃ t, exec i s = .next t ∧ s.Answers t .ok 0 ∧ ∀ j : Fin 16, Memory.get? t.mem (b + j) = some (result j)) ∧
    (∀ (klen : BitVec 8) (v : Variant), klen.toNat = v.keyLength → s.bufferReadable a v.keyLength →
      ∃ t e', exec (.setkey klen a) s = .next t ∧ s.Answers t .ok 0 ∧ t.engine? = some e' ∧
        e'.key = some (expandKey v fun n => Config.freeOctet (s.freeIdx + n)))

/-! ### Tables and primitives -/

/-- The S-box: `S[x]` is the affine map of the multiplicative inverse of `x`, the inverse of 0 being 0 (R121, R122). -/
def Obligations.SboxAffineOfInverse : Prop :=
  ∀ x : Byte, ∃ b : Byte, (x = 0 ∧ b = 0 ∨ gmul x b = 1) ∧ sbox x = affine b

/-- `Si` is the compositional inverse of `S` (R124), and neither has a fixed point or an opposite fixed point (R126,
which the spec marks as derived from R122 to R125, its own inference). -/
def Obligations.InverseSboxInverts : Prop :=
  ∀ x : Byte, invSbox (sbox x) = x ∧ sbox (invSbox x) = x ∧ sbox x ≠ x ∧ invSbox x ≠ x ∧ sbox x ≠ x ^^^ 0xff ∧
    invSbox x ≠ x ^^^ 0xff

/-- The T-tables, entry by entry: Enc_k the products (2, 1, 1, 3) of `S[b]` and Dec_k the products (0e, 09, 0d, 0b) of
`Si[b]`, each rotated right by 8k (R140 to R143, with the direction of spec/90_conflicts.md C1). -/
def Obligations.TTableEntries : Prop :=
  ∀ b : Byte,
    enc0 b = mkWord (gmul 2 (sbox b)) (sbox b) (sbox b) (gmul 3 (sbox b)) ∧
    enc1 b = mkWord (gmul 3 (sbox b)) (gmul 2 (sbox b)) (sbox b) (sbox b) ∧
    enc2 b = mkWord (sbox b) (gmul 3 (sbox b)) (gmul 2 (sbox b)) (sbox b) ∧
    enc3 b = mkWord (sbox b) (sbox b) (gmul 3 (sbox b)) (gmul 2 (sbox b)) ∧
    dec0 b = mkWord (gmul 14 (invSbox b)) (gmul 9 (invSbox b)) (gmul 13 (invSbox b)) (gmul 11 (invSbox b)) ∧
    dec1 b = mkWord (gmul 11 (invSbox b)) (gmul 14 (invSbox b)) (gmul 9 (invSbox b)) (gmul 13 (invSbox b)) ∧
    dec2 b = mkWord (gmul 13 (invSbox b)) (gmul 11 (invSbox b)) (gmul 14 (invSbox b)) (gmul 9 (invSbox b)) ∧
    dec3 b = mkWord (gmul 9 (invSbox b)) (gmul 13 (invSbox b)) (gmul 11 (invSbox b)) (gmul 14 (invSbox b)) ∧
    enc1 b = (enc0 b).rotateRight 8 ∧ enc2 b = (enc0 b).rotateRight 16 ∧ enc3 b = (enc0 b).rotateRight 24 ∧
    dec1 b = (dec0 b).rotateRight 8 ∧ dec2 b = (dec0 b).rotateRight 16 ∧ dec3 b = (dec0 b).rotateRight 24

/-- FastInvMixColumn is the InvMixColumns transform of the raw column, and is linear over XOR (R144, R170). -/
def Obligations.FastInvMixColumnTransforms : Prop :=
  (∀ w : Word, fastInvMixColumn w =
    mkWord (gmul 14 (byte3 w) ^^^ gmul 11 (byte2 w) ^^^ gmul 13 (byte1 w) ^^^ gmul 9 (byte0 w))
      (gmul 9 (byte3 w) ^^^ gmul 14 (byte2 w) ^^^ gmul 11 (byte1 w) ^^^ gmul 13 (byte0 w))
      (gmul 13 (byte3 w) ^^^ gmul 9 (byte2 w) ^^^ gmul 14 (byte1 w) ^^^ gmul 11 (byte0 w))
      (gmul 11 (byte3 w) ^^^ gmul 13 (byte2 w) ^^^ gmul 9 (byte1 w) ^^^ gmul 14 (byte0 w))) ∧
  ∀ v w : Word, fastInvMixColumn (v ^^^ w) = fastInvMixColumn v ^^^ fastInvMixColumn w

/-- The encryption round primitives, byte by byte: with `a ro = S[st[ro][c + ro]]`, SubBytesShiftRows is the column
`(a 0, a 1, a 2, a 3)` and MixColShiftRow its product with the MixColumns matrix (R166, R168, R171). -/
def Obligations.EncryptRoundBytewise : Prop :=
  ∀ (s : Columns) (c : Fin 4), ∃ a : Fin 4 → Byte, (∀ ro, a ro = sbox (stateByte s ro (c + ro))) ∧
    subBytesShiftRows c s = mkWord (a 0) (a 1) (a 2) (a 3) ∧
    mixColShiftRow c s =
      mkWord (gmul 2 (a 0) ^^^ gmul 3 (a 1) ^^^ a 2 ^^^ a 3) (a 0 ^^^ gmul 2 (a 1) ^^^ gmul 3 (a 2) ^^^ a 3)
        (a 0 ^^^ a 1 ^^^ gmul 2 (a 2) ^^^ gmul 3 (a 3)) (gmul 3 (a 0) ^^^ a 1 ^^^ a 2 ^^^ gmul 2 (a 3))

/-- The decryption round primitives, byte by byte: with `a ro = Si[st[ro][c - ro]]`, InvSubBytesShiftRows is the column
`(a 0, a 1, a 2, a 3)`, and InvMixColShiftRow is its InvMixColumns transform (R167, R169, R171). -/
def Obligations.DecryptRoundBytewise : Prop :=
  ∀ (s : Columns) (c : Fin 4), ∃ a : Fin 4 → Byte, (∀ ro, a ro = invSbox (stateByte s ro (c - ro))) ∧
    invSubBytesShiftRows c s = mkWord (a 0) (a 1) (a 2) (a 3) ∧
    invMixColShiftRow c s = fastInvMixColumn (mkWord (a 0) (a 1) (a 2) (a 3))

/-- StoreWord is the exact inverse of LoadWord on its column and touches no other octet (R66, R160, R161). -/
def Obligations.StoreWordInvertsLoadWord : Prop :=
  ∀ (w : Word) (c : Fin 4) (out : Octets 16),
    loadWord (storeWord w c out) c (by omega) = w ∧
    (∀ j : Fin 16, j.val < 4 * c.val ∨ 4 * c.val + 4 ≤ j.val → storeWord w c out j = out j) ∧
    storeWord (loadWord out c (by omega)) c out = out

/-- RotWord moves the bytes `(a, b, c, d)` to `(b, c, d, a)`, SubWord substitutes each by itself, and the two commute
(R162, R163). -/
def Obligations.RotWordAndSubWord : Prop :=
  (∀ a b c d : Byte, rotWord (mkWord a b c d) = mkWord b c d a ∧
    subWord (mkWord a b c d) = mkWord (sbox a) (sbox b) (sbox c) (sbox d)) ∧
  ∀ w : Word, subWord (rotWord w) = rotWord (subWord w) ∧ rotWord (rotWord (rotWord (rotWord w))) = w
end

