-- ==== Sys2Proof/Laws/Decode.lean ====
section
/-! SUPPORT. The fields of a SETKEY word, and everything the decoder can answer. -/

namespace Sys2Proof

/-- A SETKEY word, made of its `klen` (R97). -/
abbrev setkeyWord (klen : BitVec 8) : BitVec 32 := 0x10000000 ||| klen.setWidth 32

theorem setkeyWord_opcode (klen : BitVec 8) : (setkeyWord klen).extractLsb' 28 4 = 1 := by
  ext i hi; interval_cases i <;> simp

theorem setkeyWord_rsvd (klen : BitVec 8) : (setkeyWord klen).extractLsb' 8 20 = 0 := by
  ext i hi; interval_cases i <;> simp

theorem setkeyWord_klen (klen : BitVec 8) : (setkeyWord klen).extractLsb' 0 8 = klen := by
  ext i hi; interval_cases i <;> simp

/-- A word with the SETKEY opcode and a zero reserved field is the SETKEY word of its `klen`. -/
theorem eq_setkeyWord {cw : BitVec 32} (ho : cw.extractLsb' 28 4 = 1) (hz : cw.extractLsb' 8 20 = 0) :
    cw = setkeyWord (cw.extractLsb' 0 8) := by
  have bit (n : Nat) (f : BitVec n) (k : Nat) (h : cw.extractLsb' k n = f) (i : Nat) (hi : i < n) :
      cw.getLsbD (k + i) = f.getLsbD i := by rw [← h]; simp [hi]
  ext i hi
  rcases Nat.lt_or_ge i 8 with h | h
  · interval_cases i <;> simp
  · rcases Nat.lt_or_ge i 28 with h' | h'
    · have := bit 20 0 8 hz (i - 8) (by omega)
      interval_cases i <;> simpa using this
    · have := bit 4 1 28 ho (i - 28) (by omega)
      interval_cases i <;> simpa using this

/-- A word is known from its opcode when the rest of it is zero. -/
theorem eq_of_opcode {cw w : BitVec 32} (ho : cw.extractLsb' 28 4 = w.extractLsb' 28 4)
    (hz : cw.extractLsb' 0 28 = 0) (hw : w.extractLsb' 0 28 = 0) : cw = w := by
  have bit (n k : Nat) (h : cw.extractLsb' k n = w.extractLsb' k n) (i : Nat) (hi : i < n) :
      cw.getLsbD (k + i) = w.getLsbD (k + i) := by
    have := congrArg (fun f => f.getLsbD i) h
    simpa [hi] using this
  apply BitVec.eq_of_getLsbD_eq
  intro i hi
  rcases Nat.lt_or_ge i 28 with h | h
  · simpa using bit 28 0 (hz.trans hw.symm) i h
  · have := bit 4 28 ho (i - 28) (by omega)
    rwa [show 28 + (i - 28) = i by omega] at this

/-- Everything the decoder can answer (R101): a command with the word it has, or a refusal. -/
theorem decode_cases (c : Command) :
    (∃ err, decode c = .error err) ∨
    (∃ klen, c.cw = setkeyWord klen ∧ decode c = .ok (.setkey klen c.op0)) ∨
    (c.cw = 0x20000000 ∧ decode c = .ok (.encrypt c.op0 c.op1)) ∨
    (c.cw = 0x30000000 ∧ decode c = .ok (.decrypt c.op0 c.op1)) ∨
    (c.cw = 0x40000000 ∧ decode c = .ok .keylen) ∨
    (c.cw = 0x50000000 ∧ decode c = .ok .blklen) := by
  unfold decode
  split
  next h =>
    by_cases z : c.rsvd = 0
    · exact .inr (.inl ⟨c.klen, eq_setkeyWord h z, if_pos z⟩)
    · exact .inl ⟨_, if_neg z⟩
  · split
    next h =>
      by_cases z : c.rsvd2 = 0
      · exact .inr (.inr (.inl ⟨eq_of_opcode (h.trans (by decide)) z (by decide), if_pos z⟩))
      · exact .inl ⟨_, if_neg z⟩
    · split
      next h =>
        by_cases z : c.rsvd2 = 0
        · exact .inr (.inr (.inr (.inl ⟨eq_of_opcode (h.trans (by decide)) z (by decide), if_pos z⟩)))
        · exact .inl ⟨_, if_neg z⟩
      · split
        next h =>
          by_cases z : c.rsvd2 = 0
          · exact .inr (.inr (.inr (.inr (.inl ⟨eq_of_opcode (h.trans (by decide)) z (by decide), if_pos z⟩))))
          · exact .inl ⟨_, if_neg z⟩
        · split
          next h =>
            by_cases z : c.rsvd2 = 0
            · exact .inr (.inr (.inr (.inr (.inr ⟨eq_of_opcode (h.trans (by decide)) z (by decide), if_pos z⟩))))
            · exact .inl ⟨_, if_neg z⟩
          · exact .inl ⟨_, rfl⟩

/-- What each word of the opcode map decodes to, whatever the operands (R97, R99). -/
theorem decode_setkeyWord (klen : BitVec 8) (a b : Nat) :
    decode { cw := setkeyWord klen, op0 := a, op1 := b } = .ok (.setkey klen a) := by
  simp [decode, requireZero, Command.opcode, Command.rsvd, Command.klen, setkeyWord_opcode, setkeyWord_rsvd,
    setkeyWord_klen]

theorem decode_encryptWord (a b : Nat) : decode { cw := 0x20000000, op0 := a, op1 := b } = .ok (.encrypt a b) := by
  simp [decode, requireZero, Command.opcode, Command.rsvd2]

theorem decode_decryptWord (a b : Nat) : decode { cw := 0x30000000, op0 := a, op1 := b } = .ok (.decrypt a b) := by
  simp [decode, requireZero, Command.opcode, Command.rsvd2]

theorem decode_keylenWord (a b : Nat) : decode { cw := 0x40000000, op0 := a, op1 := b } = .ok .keylen := by
  simp [decode, requireZero, Command.opcode, Command.rsvd2]

theorem decode_blklenWord (a b : Nat) : decode { cw := 0x50000000, op0 := a, op1 := b } = .ok .blklen := by
  simp [decode, requireZero, Command.opcode, Command.rsvd2]

end Sys2Proof
end

