-- ==== Sys2Proof/Laws/Words.lean ====
section
/-! SUPPORT. Words and their bytes: a word is its four bytes, XOR works byte by byte, and the column loads and stores
undo each other. -/

namespace Sys2Proof.Machine

section bytes
variable (a b c d : Byte) (v w : Word)

@[simp] theorem byte3_mkWord : byte3 (mkWord a b c d) = a := by
  ext i hi
  interval_cases i <;> simp [byte3, mkWord]
@[simp] theorem byte2_mkWord : byte2 (mkWord a b c d) = b := by
  ext i hi
  interval_cases i <;> simp [byte2, mkWord]
@[simp] theorem byte1_mkWord : byte1 (mkWord a b c d) = c := by
  ext i hi
  interval_cases i <;> simp [byte1, mkWord]
@[simp] theorem byte0_mkWord : byte0 (mkWord a b c d) = d := by
  ext i hi
  interval_cases i <;> simp [byte0, mkWord]

/-- A word is its four bytes, most significant first. -/
theorem mkWord_bytes : mkWord (byte3 w) (byte2 w) (byte1 w) (byte0 w) = w := by
  ext i hi
  interval_cases i <;> simp [byte3, byte2, byte1, byte0, mkWord]

/-- Words with equal bytes are equal. -/
theorem word_ext {v w : Word} (h3 : byte3 v = byte3 w) (h2 : byte2 v = byte2 w) (h1 : byte1 v = byte1 w)
    (h0 : byte0 v = byte0 w) : v = w := by
  rw [← mkWord_bytes v, ← mkWord_bytes w, h3, h2, h1, h0]

@[simp] theorem byte3_xor : byte3 (v ^^^ w) = byte3 v ^^^ byte3 w := by ext i hi; simp [byte3]
@[simp] theorem byte2_xor : byte2 (v ^^^ w) = byte2 v ^^^ byte2 w := by ext i hi; simp [byte2]
@[simp] theorem byte1_xor : byte1 (v ^^^ w) = byte1 v ^^^ byte1 w := by ext i hi; simp [byte1]
@[simp] theorem byte0_xor : byte0 (v ^^^ w) = byte0 v ^^^ byte0 w := by ext i hi; simp [byte0]

end bytes

section columns
variable (f : Fin 4 → Word)

@[simp] theorem Columns.ofFn_get (c : Fin 4) : (Columns.ofFn f).get c = f c := by
  fin_cases c <;> rfl

/-- Columns with equal words are equal. -/
theorem Columns.ext_get {s t : Columns} (h : ∀ c, s.get c = t.get c) : s = t := by
  obtain ⟨a, b, c, d⟩ := s
  obtain ⟨a', b', c', d'⟩ := t
  have h0 := h 0; have h1 := h 1; have h2 := h 2; have h3 := h 3
  simp only [Columns.get] at h0 h1 h2 h3
  rw [h0, h1, h2, h3]

end columns

/-- The octets of a column after a StoreWord on it (R161). -/
theorem storeWord_same (w : Word) (c : Fin 4) (out : Octets 16) (j : Fin 16) (h : j.val / 4 = c.val) :
    storeWord w c out j = wordOctet w (j.val % 4) := if_pos h

/-- The octets of another column after a StoreWord (R161). -/
theorem storeWord_other (w : Word) (c : Fin 4) (out : Octets 16) (j : Fin 16) (h : j.val / 4 ≠ c.val) :
    storeWord w c out j = out j := if_neg h

/-- Octet `4c + i` of a stored state is octet `i` of column `c` (R206), whatever the staging value held. -/
theorem storeColumns_apply (s : Columns) (j : Fin 16) :
    storeColumns s j = wordOctet (s.get ⟨j.val / 4, by omega⟩) (j.val % 4) := by
  fin_cases j <;> rfl

/-- Column `c` of a loaded block. -/
theorem loadColumns_get (block : Octets 16) (c : Fin 4) :
    (loadColumns block).get c = loadWord block c (by omega) := by
  fin_cases c <;> rfl

/-- Loading what was stored gives the columns back. -/
theorem loadColumns_storeColumns (s : Columns) : loadColumns (storeColumns s) = s := by
  obtain ⟨a, b, c, d⟩ := s
  simp only [loadColumns, loadWord, storeColumns_apply]
  simp [Columns.get, wordOctet, mkWord_bytes]

/-- Storing what was loaded gives the block back. -/
theorem storeColumns_loadColumns (block : Octets 16) : storeColumns (loadColumns block) = block := by
  funext j
  rw [storeColumns_apply]
  fin_cases j <;> simp [loadColumns, loadWord, Columns.get, wordOctet]

end Sys2Proof.Machine
end

