-- ==== Sys2Proof/Laws/Field.lean ====
section
/-! SUPPORT. The tables and the round primitives: `Si` undoes `S`, the T-tables are columns of products, and
FastInvMixColumn is linear and undoes the MixColumns part of a round (R124, R140 to R145, R170). -/

namespace Sys2Proof.Machine

/-- Multiplication by x is linear (R120). -/
theorem xtime_xor (a b : Byte) : xtime (a ^^^ b) = xtime a ^^^ xtime b := by
  have h (c : Byte) : xtime c = (c <<< 1) ^^^ (if c.getLsbD 7 then 0x1B else 0) := by
    unfold xtime; split <;> simp
  have split_if (p q : Bool) : (if p ^^ q then (0x1B : Byte) else 0) =
      (if p then 0x1B else 0) ^^^ (if q then 0x1B else 0) := by cases p <;> cases q <;> rfl
  rw [h, h a, h b, BitVec.getLsbD_xor, BitVec.shiftLeft_xor_distrib, split_if]
  ac_rfl

/-- `Si` undoes `S` (R124). -/
theorem invSbox_sbox : ∀ x : Byte, invSbox (sbox x) = x := by decide

/-- `S` undoes `Si` (R124). -/
theorem sbox_invSbox : ∀ y : Byte, sbox (invSbox y) = y := by decide

/-- A rotation to the right by one byte. -/
theorem rotateRight_mkWord (a b c d : Byte) : (mkWord a b c d).rotateRight 8 = mkWord d a b c := by
  refine word_ext ?_ ?_ ?_ ?_ <;> ext i hi <;>
    interval_cases i <;> simp [byte3, byte2, byte1, byte0, mkWord]

/-- Rotations to the right by two and three bytes. -/
theorem rotateRight_mkWord_two (a b c d : Byte) : (mkWord a b c d).rotateRight 16 = mkWord c d a b := by
  refine word_ext ?_ ?_ ?_ ?_ <;> ext i hi <;>
    interval_cases i <;> simp [byte3, byte2, byte1, byte0, mkWord]

theorem rotateRight_mkWord_three (a b c d : Byte) : (mkWord a b c d).rotateRight 24 = mkWord b c d a := by
  refine word_ext ?_ ?_ ?_ ?_ <;> ext i hi <;>
    interval_cases i <;> simp [byte3, byte2, byte1, byte0, mkWord]

/-- A rotation to the left by one byte (R162). -/
theorem rotWord_mkWord (a b c d : Byte) : rotWord (mkWord a b c d) = mkWord b c d a := by
  refine word_ext ?_ ?_ ?_ ?_ <;> ext i hi <;>
    interval_cases i <;> simp [rotWord, byte3, byte2, byte1, byte0, mkWord]

/-- XOR of words, byte by byte. -/
theorem mkWord_xor (a b c d a' b' c' d' : Byte) :
    mkWord a b c d ^^^ mkWord a' b' c' d' = mkWord (a ^^^ a') (b ^^^ b') (c ^^^ c') (d ^^^ d') := by
  refine word_ext ?_ ?_ ?_ ?_ <;> simp

/-- The four products `0e•x`, `09•x`, `0d•x`, `0b•x` (R120, R142). -/
def mul14 (x : Byte) : Byte := xtime (xtime (xtime x)) ^^^ xtime (xtime x) ^^^ xtime x
def mul9 (x : Byte) : Byte := xtime (xtime (xtime x)) ^^^ x
def mul13 (x : Byte) : Byte := xtime (xtime (xtime x)) ^^^ xtime (xtime x) ^^^ x
def mul11 (x : Byte) : Byte := xtime (xtime (xtime x)) ^^^ xtime x ^^^ x

theorem mul14_xor (a b : Byte) : mul14 (a ^^^ b) = mul14 a ^^^ mul14 b := by
  simp only [mul14, xtime_xor]; ac_rfl
theorem mul9_xor (a b : Byte) : mul9 (a ^^^ b) = mul9 a ^^^ mul9 b := by
  simp only [mul9, xtime_xor]; ac_rfl
theorem mul13_xor (a b : Byte) : mul13 (a ^^^ b) = mul13 a ^^^ mul13 b := by
  simp only [mul13, xtime_xor]; ac_rfl
theorem mul11_xor (a b : Byte) : mul11 (a ^^^ b) = mul11 a ^^^ mul11 b := by
  simp only [mul11, xtime_xor]; ac_rfl

/-- The Dec tables at `S[x]` are the columns of the InvMixColumns matrix times `x` (R144). -/
theorem dec0_sbox (x : Byte) : dec0 (sbox x) = mkWord (mul14 x) (mul9 x) (mul13 x) (mul11 x) := by
  rw [dec0, invSbox_sbox]; rfl
theorem dec1_sbox (x : Byte) : dec1 (sbox x) = mkWord (mul11 x) (mul14 x) (mul9 x) (mul13 x) := by
  rw [dec1, dec0_sbox, rotateRight_mkWord]
theorem dec2_sbox (x : Byte) : dec2 (sbox x) = mkWord (mul13 x) (mul11 x) (mul14 x) (mul9 x) := by
  rw [dec2, dec0_sbox, rotateRight_mkWord_two]
theorem dec3_sbox (x : Byte) : dec3 (sbox x) = mkWord (mul9 x) (mul13 x) (mul11 x) (mul14 x) := by
  rw [dec3, dec0_sbox, rotateRight_mkWord_three]

/-- FastInvMixColumn, byte by byte. -/
theorem fastInvMixColumn_eq (w : Word) : fastInvMixColumn w =
    mkWord (mul14 (byte3 w) ^^^ mul11 (byte2 w) ^^^ mul13 (byte1 w) ^^^ mul9 (byte0 w))
      (mul9 (byte3 w) ^^^ mul14 (byte2 w) ^^^ mul11 (byte1 w) ^^^ mul13 (byte0 w))
      (mul13 (byte3 w) ^^^ mul9 (byte2 w) ^^^ mul14 (byte1 w) ^^^ mul11 (byte0 w))
      (mul11 (byte3 w) ^^^ mul13 (byte2 w) ^^^ mul9 (byte1 w) ^^^ mul14 (byte0 w)) := by
  rw [fastInvMixColumn, dec0_sbox, dec1_sbox, dec2_sbox, dec3_sbox, mkWord_xor, mkWord_xor, mkWord_xor]

/-- FastInvMixColumn is linear over XOR (R170). -/
theorem fastInvMixColumn_xor (v w : Word) :
    fastInvMixColumn (v ^^^ w) = fastInvMixColumn v ^^^ fastInvMixColumn w := by
  rw [fastInvMixColumn_eq, fastInvMixColumn_eq v, fastInvMixColumn_eq w, mkWord_xor]
  simp only [byte3_xor, byte2_xor, byte1_xor, byte0_xor, mul14_xor, mul9_xor, mul13_xor, mul11_xor]
  congr 1 <;> ac_rfl

/-- InvMixColumns takes a column of the MixColumns matrix to a unit column. -/
theorem fastInvMixColumn_mixColumn : ∀ x : Byte,
    fastInvMixColumn (mkWord (xtime x) x x (xtime x ^^^ x)) = mkWord x 0 0 0 ∧
    fastInvMixColumn (mkWord (xtime x ^^^ x) (xtime x) x x) = mkWord 0 x 0 0 ∧
    fastInvMixColumn (mkWord x (xtime x ^^^ x) (xtime x) x) = mkWord 0 0 x 0 ∧
    fastInvMixColumn (mkWord x x (xtime x ^^^ x) (xtime x)) = mkWord 0 0 0 x := by decide

theorem fastInvMixColumn_enc0 (b : Byte) : fastInvMixColumn (enc0 b) = mkWord (sbox b) 0 0 0 :=
  (fastInvMixColumn_mixColumn _).1
theorem fastInvMixColumn_enc1 (b : Byte) : fastInvMixColumn (enc1 b) = mkWord 0 (sbox b) 0 0 := by
  rw [enc1, enc0, rotateRight_mkWord]; exact (fastInvMixColumn_mixColumn _).2.1
theorem fastInvMixColumn_enc2 (b : Byte) : fastInvMixColumn (enc2 b) = mkWord 0 0 (sbox b) 0 := by
  rw [enc2, enc0, rotateRight_mkWord_two]; exact (fastInvMixColumn_mixColumn _).2.2.1
theorem fastInvMixColumn_enc3 (b : Byte) : fastInvMixColumn (enc3 b) = mkWord 0 0 0 (sbox b) := by
  rw [enc3, enc0, rotateRight_mkWord_three]; exact (fastInvMixColumn_mixColumn _).2.2.2

/-- FastInvMixColumn undoes the MixColumns part of a round (R223). -/
theorem fastInvMixColumn_mixColShiftRow (c : Fin 4) (s : Columns) :
    fastInvMixColumn (mixColShiftRow c s) = subBytesShiftRows c s := by
  simp only [mixColShiftRow, subBytesShiftRows, fastInvMixColumn_xor, fastInvMixColumn_enc0, fastInvMixColumn_enc1,
    fastInvMixColumn_enc2, fastInvMixColumn_enc3, mkWord_xor]
  simp

/-- The Dec-table round of a substituted and shifted state is FastInvMixColumn of the state's column. -/
theorem invMixColShiftRow_subBytesShiftRows (c : Fin 4) (s : Columns) :
    invMixColShiftRow c (Columns.ofFn fun c => subBytesShiftRows c s) = fastInvMixColumn (s.get c) := by
  have h1 (c : Fin 4) : c + 3 + 1 = c := by omega
  have h2 (c : Fin 4) : c + 2 + 2 = c := by omega
  have h3 (c : Fin 4) : c + 1 + 3 = c := by omega
  simp only [invMixColShiftRow, fastInvMixColumn, Columns.ofFn_get, subBytesShiftRows, byte3_mkWord, byte2_mkWord,
    byte1_mkWord, byte0_mkWord, h1, h2, h3]

/-- InvSubBytesShiftRows undoes SubBytesShiftRows (R169). -/
theorem invSubBytesShiftRows_subBytesShiftRows (c : Fin 4) (s : Columns) :
    invSubBytesShiftRows c (Columns.ofFn fun c => subBytesShiftRows c s) = s.get c := by
  have h1 (c : Fin 4) : c + 3 + 1 = c := by omega
  have h2 (c : Fin 4) : c + 2 + 2 = c := by omega
  have h3 (c : Fin 4) : c + 1 + 3 = c := by omega
  simp only [invSubBytesShiftRows, Columns.ofFn_get, subBytesShiftRows, byte3_mkWord, byte2_mkWord, byte1_mkWord,
    byte0_mkWord, h1, h2, h3, invSbox_sbox, mkWord_bytes]

end Sys2Proof.Machine
end

