-- ==== Sys2Proof/Laws/State.lean ====
section
/-! SUPPORT. One lemma for each field under each update of the state and of an instance, true by definition: no later
proof unfolds a record update. -/

namespace Sys2Proof.Machine

section respond
variable (s : State) (st : Status) (v : BitVec 8)

@[simp] theorem State.respond_params : (s.respond st v).params = s.params := rfl
@[simp] theorem State.respond_engines : (s.respond st v).engines = s.engines := rfl
@[simp] theorem State.respond_mem : (s.respond st v).mem = s.mem := rfl
@[simp] theorem State.respond_prot : (s.respond st v).prot = s.prot := rfl
@[simp] theorem State.respond_inFlight : (s.respond st v).inFlight = s.inFlight := rfl
@[simp] theorem State.respond_queue : (s.respond st v).queue = s.queue := rfl
@[simp] theorem State.respond_responses :
    (s.respond st v).responses = s.responses ++ [{ inst := s.target, status := st, value := v }] := rfl
@[simp] theorem State.respond_target : (s.respond st v).target = s.target := rfl
@[simp] theorem State.respond_disturbed : (s.respond st v).disturbed = s.disturbed := rfl
@[simp] theorem State.respond_freeIdx : (s.respond st v).freeIdx = s.freeIdx := rfl

end respond

section raiseStatus
variable (s : State) (st : Status)

@[simp] theorem State.raiseStatus_params : (s.raiseStatus st).params = s.params := rfl
@[simp] theorem State.raiseStatus_engines : (s.raiseStatus st).engines = s.engines := rfl
@[simp] theorem State.raiseStatus_mem : (s.raiseStatus st).mem = s.mem := rfl
@[simp] theorem State.raiseStatus_prot : (s.raiseStatus st).prot = s.prot := rfl
@[simp] theorem State.raiseStatus_inFlight : (s.raiseStatus st).inFlight = s.inFlight := rfl
@[simp] theorem State.raiseStatus_queue : (s.raiseStatus st).queue = s.queue := rfl
@[simp] theorem State.raiseStatus_responses :
    (s.raiseStatus st).responses = s.responses ++ [{ inst := s.target, status := st, value := 0 }] := rfl
@[simp] theorem State.raiseStatus_target : (s.raiseStatus st).target = s.target := rfl
@[simp] theorem State.raiseStatus_disturbed : (s.raiseStatus st).disturbed = s.disturbed := rfl
@[simp] theorem State.raiseStatus_freeIdx : (s.raiseStatus st).freeIdx = s.freeIdx := rfl

end raiseStatus

section setEngine
variable (s : State) (e : Engine)

@[simp] theorem State.setEngine_params : (s.setEngine e).params = s.params := rfl
@[simp] theorem State.setEngine_engines : (s.setEngine e).engines = s.engines.set s.target e := rfl
@[simp] theorem State.setEngine_mem : (s.setEngine e).mem = s.mem := rfl
@[simp] theorem State.setEngine_prot : (s.setEngine e).prot = s.prot := rfl
@[simp] theorem State.setEngine_inFlight : (s.setEngine e).inFlight = s.inFlight := rfl
@[simp] theorem State.setEngine_queue : (s.setEngine e).queue = s.queue := rfl
@[simp] theorem State.setEngine_responses : (s.setEngine e).responses = s.responses := rfl
@[simp] theorem State.setEngine_target : (s.setEngine e).target = s.target := rfl
@[simp] theorem State.setEngine_disturbed : (s.setEngine e).disturbed = s.disturbed := rfl
@[simp] theorem State.setEngine_freeIdx : (s.setEngine e).freeIdx = s.freeIdx := rfl

end setEngine

section spendFree
variable (s : State)

@[simp] theorem State.spendFree_params : s.spendFree.params = s.params := rfl
@[simp] theorem State.spendFree_engines : s.spendFree.engines = s.engines := rfl
@[simp] theorem State.spendFree_mem : s.spendFree.mem = s.mem := rfl
@[simp] theorem State.spendFree_prot : s.spendFree.prot = s.prot := rfl
@[simp] theorem State.spendFree_inFlight : s.spendFree.inFlight = s.inFlight := rfl
@[simp] theorem State.spendFree_queue : s.spendFree.queue = s.queue := rfl
@[simp] theorem State.spendFree_responses : s.spendFree.responses = s.responses := rfl
@[simp] theorem State.spendFree_target : s.spendFree.target = s.target := rfl
@[simp] theorem State.spendFree_disturbed : s.spendFree.disturbed = s.disturbed := rfl
@[simp] theorem State.spendFree_freeIdx : s.spendFree.freeIdx = s.freeIdx + Config.freeStride := rfl

end spendFree

section select
variable (s : State) (inst : Nat) (d : Bool)

@[simp] theorem State.select_params : (s.select inst d).params = s.params := rfl
@[simp] theorem State.select_engines : (s.select inst d).engines = s.engines := rfl
@[simp] theorem State.select_mem : (s.select inst d).mem = s.mem := rfl
@[simp] theorem State.select_prot : (s.select inst d).prot = s.prot := rfl
@[simp] theorem State.select_inFlight : (s.select inst d).inFlight = s.inFlight := rfl
@[simp] theorem State.select_queue : (s.select inst d).queue = s.queue := rfl
@[simp] theorem State.select_responses : (s.select inst d).responses = s.responses := rfl
@[simp] theorem State.select_target : (s.select inst d).target = inst := rfl
@[simp] theorem State.select_disturbed : (s.select inst d).disturbed = d := rfl
@[simp] theorem State.select_freeIdx : (s.select inst d).freeIdx = s.freeIdx := rfl

end select

section engine
variable (e : Engine) (k : Nat)

@[simp] theorem Engine.releaseCipher_key : (e.releaseCipher k).key = e.key := rfl
@[simp] theorem Engine.releaseCipher_backend : (e.releaseCipher k).backend = e.backend := rfl
@[simp] theorem Engine.releaseCipher_s : (e.releaseCipher k).s = freeColumns k := rfl
@[simp] theorem Engine.releaseCipher_t : (e.releaseCipher k).t = freeColumns (k + 4) := rfl
@[simp] theorem Engine.releaseCipher_temp : (e.releaseCipher k).temp = e.temp := rfl
@[simp] theorem Engine.releaseTemp_key : (e.releaseTemp k).key = e.key := rfl
@[simp] theorem Engine.releaseTemp_backend : (e.releaseTemp k).backend = e.backend := rfl
@[simp] theorem Engine.releaseTemp_s : (e.releaseTemp k).s = e.s := rfl
@[simp] theorem Engine.releaseTemp_t : (e.releaseTemp k).t = e.t := rfl
@[simp] theorem Engine.releaseTemp_temp : (e.releaseTemp k).temp = Config.freeWord (k + 8) := rfl
@[simp] theorem Engine.unkey_key : e.unkey.key = none := rfl
@[simp] theorem Engine.unkey_backend : e.unkey.backend = e.backend := rfl
@[simp] theorem Engine.unkey_s : e.unkey.s = e.s := rfl
@[simp] theorem Engine.unkey_t : e.unkey.t = e.t := rfl
@[simp] theorem Engine.unkey_temp : e.unkey.temp = e.temp := rfl
@[simp] theorem Engine.reset_key : Engine.reset.key = none := rfl
@[simp] theorem Engine.reset_backend : Engine.reset.backend = .software := rfl

/-- A failed SETKEY touches the key only. -/
@[simp] theorem Engine.afterFailedSetkey_backend (p : FailPolicy) :
    (e.afterFailedSetkey p).backend = e.backend := by cases p <;> rfl

/-- A failed SETKEY never makes a key. -/
theorem Engine.afterFailedSetkey_key {p : FailPolicy} {k : KeyState}
    (h : (e.afterFailedSetkey p).key = some k) : e.key = some k := by
  cases p
  · exact absurd h (by simp [Engine.afterFailedSetkey])
  · exact h

end engine

/-- Whether the engine may read an octet depends on the parameters, the memory and the host's restrictions only. -/
theorem State.readable_congr {s t : State} (hp : t.params = s.params) (hm : t.mem = s.mem) (hr : t.prot = s.prot)
    (a : Nat) : t.readable a = s.readable a := by
  simp [State.readable, State.present, State.restricts, hp, hm, hr]

end Sys2Proof.Machine
end

