-- ==== Sys2Proof/Laws/Memory.lean ====
section
/-! SUPPORT. Host memory: what a read gives after a write, and that every operation keeps the canonical form. -/

namespace Sys2Proof.Machine

/-- A read after a write of one octet. -/
theorem Memory.get?_set (m : Memory) (a b : Nat) (v : Byte) :
    Memory.get? (m.set a v) b = if a = b then some v else Memory.get? m b := by
  induction m with
  | nil => simp [Memory.set, Memory.get?]
  | cons c m ih =>
    obtain ⟨x, w⟩ := c
    simp only [Memory.set]
    split
    · simp [Memory.get?]
    · split
      · subst_vars; by_cases h : x = b <;> simp [Memory.get?, h]
      · simp only [Memory.get?, ih]
        by_cases h : x = b <;> by_cases h' : a = b <;> simp_all

/-- The addresses listed after a write. -/
theorem Memory.mem_set {m : Memory} {a : Nat} {v : Byte} {c : Host.Cell} (h : c ∈ m.set a v) :
    c = (a, v) ∨ c ∈ m := by
  induction m with
  | nil => simpa [Memory.set] using h
  | cons d m ih =>
    obtain ⟨x, w⟩ := d
    simp only [Memory.set] at h
    split at h
    · simpa using h
    · split at h
      · rcases List.mem_cons.1 h with h | h
        · exact .inl h
        · exact .inr (List.mem_cons_of_mem _ h)
      · rcases List.mem_cons.1 h with h | h
        · exact .inr (by simp [h])
        · exact (ih h).imp id (List.mem_cons_of_mem _)

/-- A write of one octet keeps the canonical form. -/
theorem Memory.wf_set {m : Memory} (h : Memory.wf m) (a : Nat) (v : Byte) : Memory.wf (m.set a v) := by
  induction m with
  | nil => simp [Memory.set, Memory.wf]
  | cons c m ih =>
    obtain ⟨x, w⟩ := c
    have hm := List.pairwise_cons.1 h
    simp only [Memory.set]
    split
    next hlt =>
      refine List.pairwise_cons.2 ⟨fun d hd => ?_, h⟩
      rcases List.mem_cons.1 hd with rfl | hd
      · exact hlt
      · exact lt_trans hlt (hm.1 d hd)
    next hlt =>
      split
      next heq => subst heq; exact List.pairwise_cons.2 hm
      next hne =>
        refine List.pairwise_cons.2 ⟨fun d hd => ?_, ih hm.2⟩
        rcases Memory.mem_set hd with rfl | hd
        · exact lt_of_le_of_ne (Nat.le_of_not_lt hlt) (Ne.symm hne)
        · exact hm.1 d hd

/-- A write inside the address space keeps the memory inside it. -/
theorem Memory.within_set {m : Memory} {w : Nat} (h : Memory.within m w) {a : Nat} (ha : a < 2 ^ w) (v : Byte) :
    Memory.within (m.set a v) w := fun _ hc => by
  rcases Memory.mem_set hc with rfl | hc
  · exact ha
  · exact h _ hc

/-- A read after a write of consecutive octets. -/
theorem Memory.get?_writeList (vs : List Byte) (m : Memory) (a b : Nat) :
    Memory.get? (m.writeList a vs) b = if a ≤ b ∧ b < a + vs.length then vs[b - a]? else Memory.get? m b := by
  induction vs generalizing m a with
  | nil => simp only [Memory.writeList, List.length_nil, Nat.add_zero]; rw [if_neg (by omega)]
  | cons v vs ih =>
    simp only [Memory.writeList, ih, Memory.get?_set, List.length_cons]
    by_cases hab : a = b
    · subst hab; rw [if_neg (by omega), if_pos rfl, if_pos (by omega)]; simp
    · by_cases hin : a + 1 ≤ b ∧ b < a + 1 + vs.length
      · rw [if_pos hin, if_pos (by omega)]
        obtain ⟨d, hd⟩ : ∃ d, b - a = d + 1 := ⟨b - a - 1, by omega⟩
        rw [hd, List.getElem?_cons_succ]; congr 1; omega
      · rw [if_neg hin, if_neg hab, if_neg (by omega)]

/-- A read of a written octet. -/
theorem Memory.get?_write_inside {n : Nat} (m : Memory) (a : Nat) (v : Octets n) (j : Fin n) :
    Memory.get? (m.write a v) (a + j) = some (v j) := by
  rw [Memory.write, Memory.get?_writeList, if_pos ⟨Nat.le_add_right _ _, by simp⟩]
  simp

/-- A read of an octet that was not written. -/
theorem Memory.get?_write_outside {n : Nat} (m : Memory) (a b : Nat) (v : Octets n) (h : b < a ∨ a + n ≤ b) :
    Memory.get? (m.write a v) b = Memory.get? m b := by
  rw [Memory.write, Memory.get?_writeList, if_neg (by simp only [List.length_ofFn]; omega)]

/-- MemWrite keeps the canonical form. -/
theorem Memory.wf_writeList (vs : List Byte) {m : Memory} (h : Memory.wf m) (a : Nat) :
    Memory.wf (m.writeList a vs) := by
  induction vs generalizing m a with
  | nil => exact h
  | cons v vs ih => exact ih (Memory.wf_set h a v) (a + 1)

/-- MemWrite keeps the canonical form. -/
theorem Memory.wf_write {n : Nat} {m : Memory} (h : Memory.wf m) (a : Nat) (v : Octets n) :
    Memory.wf (m.write a v) := Memory.wf_writeList _ h a

/-- MemWrite inside the address space keeps the memory inside it. -/
theorem Memory.within_writeList (vs : List Byte) {m : Memory} {w : Nat} (h : Memory.within m w) {a : Nat}
    (ha : ∀ j < vs.length, a + j < 2 ^ w) : Memory.within (m.writeList a vs) w := by
  induction vs generalizing m a with
  | nil => exact h
  | cons v vs ih =>
    refine ih (Memory.within_set h (by simpa using ha 0 (by simp)) v) fun j hj => ?_
    have := ha (j + 1) (by simpa using hj)
    omega

/-- MemWrite inside the address space keeps the memory inside it. -/
theorem Memory.within_write {n : Nat} {m : Memory} {w : Nat} (h : Memory.within m w) {a : Nat} (v : Octets n)
    (ha : ∀ j : Fin n, a + j < 2 ^ w) : Memory.within (m.write a v) w :=
  Memory.within_writeList _ h fun j hj => ha ⟨j, by simpa using hj⟩

/-- Host memory at reset is in canonical form. -/
theorem Memory.wf_reset : Memory.wf State.reset.mem := List.Pairwise.nil

/-- In canonical form, an address below every one listed holds no octet. -/
theorem Memory.get?_eq_none_of_lt {m : Memory} {a : Nat} (h : ∀ c ∈ m, a < c.1) : Memory.get? m a = none := by
  induction m with
  | nil => rfl
  | cons c m ih =>
    obtain ⟨x, w⟩ := c
    have hx : a < x := h (x, w) (by simp)
    rw [Memory.get?, if_neg (by omega)]
    exact ih fun d hd => h d (List.mem_cons_of_mem _ hd)

/-- Memories in canonical form that read alike are equal. -/
theorem Memory.ext_of_wf {m m' : Memory} (h : Memory.wf m) (h' : Memory.wf m')
    (heq : ∀ a, Memory.get? m a = Memory.get? m' a) : m = m' := by
  induction m generalizing m' with
  | nil =>
    cases m' with
    | nil => rfl
    | cons c m' => obtain ⟨x, w⟩ := c; simpa [Memory.get?] using heq x
  | cons c m ih =>
    obtain ⟨x, w⟩ := c
    cases m' with
    | nil => simpa [Memory.get?] using heq x
    | cons d m' =>
      obtain ⟨y, u⟩ := d
      have hm := List.pairwise_cons.1 h
      have hm' := List.pairwise_cons.1 h'
      have hxy : x = y := by
        rcases lt_trichotomy x y with hlt | heq' | hlt
        · have := heq x
          rw [Memory.get?, if_pos rfl, Memory.get?, if_neg (by omega),
            Memory.get?_eq_none_of_lt fun d hd => lt_trans hlt (hm'.1 d hd)] at this
          simp at this
        · exact heq'
        · have := heq y
          rw [Memory.get?, if_neg (by omega), Memory.get?, if_pos rfl,
            Memory.get?_eq_none_of_lt fun d hd => lt_trans hlt (hm.1 d hd)] at this
          simp at this
      subst hxy
      have hw : w = u := by simpa [Memory.get?] using heq x
      subst hw
      rw [ih hm.2 hm'.2 fun a => ?_]
      by_cases hxa : x = a
      · subst hxa
        rw [Memory.get?_eq_none_of_lt hm.1, Memory.get?_eq_none_of_lt hm'.1]
      · simpa [Memory.get?, hxa] using heq a

end Sys2Proof.Machine
end

