-- ==== Sys2Proof/Laws/Ops.lean ====
section
/-! SUPPORT. One lemma for each shared operation and each meaning, saying once everything it can do. -/

namespace Sys2Proof.Machine

/-- A buffer read answers the octets of a readable buffer. -/
theorem State.readBuffer_eq_some {s : State} {a n : Nat} {v : Octets n} :
    s.readBuffer a n = some v ↔ ∃ h : s.bufferReadable a n, v = s.memRead a n h := by
  unfold State.readBuffer
  split
  next h => exact ⟨fun hv => ⟨h, (Option.some.inj hv).symm⟩, fun ⟨_, hv⟩ => congrArg some hv.symm⟩
  next h => simp [h]

/-- A buffer read fails exactly when an octet of the buffer may not be read. -/
theorem State.readBuffer_eq_none {s : State} {a n : Nat} : s.readBuffer a n = none ↔ ¬ s.bufferReadable a n := by
  unfold State.readBuffer
  split
  next h => simp [h]
  next h => simp [h]

/-- With no other agent at its buffer, a read gives the octets of memory (R64). -/
theorem State.memRead_undisturbed {s : State} {a n : Nat} (h : s.bufferReadable a n) (hd : s.disturbed = false)
    (j : Fin n) : Memory.get? s.mem (a + j) = some (s.memRead a n h j) := by
  simp [State.memRead, hd]

/-- A buffer whose octets may be read and are known reads as them. -/
theorem State.readBuffer_of_octets {s : State} {a n : Nat} {v : Octets n} (h : s.bufferReadable a n)
    (hd : s.disturbed = false) (hv : ∀ j : Fin n, Memory.get? s.mem (a + j) = some (v j)) :
    s.readBuffer a n = some v := by
  refine State.readBuffer_eq_some.2 ⟨h, funext fun j => ?_⟩
  exact Option.some.inj ((hv j).symm.trans (State.memRead_undisturbed h hd j))

/-- Everything SETKEY can do (R180). -/
theorem execSetkey_cases (klen : BitVec 8) (keyAddr : Nat) (s : State) :
    (s.engine? = none ∧ execSetkey klen keyAddr s = .fault .noSuchInstance) ∨
    ∃ e, s.engine? = some e ∧
      ((variantOfKeyLength klen = none ∧ execSetkey klen keyAddr s = .next (s.failSetkey e .invalidKeyLength)) ∨
       ∃ v, variantOfKeyLength klen = some v ∧
        ((s.readBuffer keyAddr v.keyLength = none ∧
            execSetkey klen keyAddr s = .next (s.failSetkey e .bufferFault)) ∨
         ∃ key, s.readBuffer keyAddr v.keyLength = some key ∧
            execSetkey klen keyAddr s = .next (s.commitKey e (expandKey v key)))) := by
  unfold execSetkey
  cases he : s.engine? with
  | none => exact .inl ⟨rfl, rfl⟩
  | some e =>
    refine .inr ⟨e, rfl, ?_⟩
    cases hv : variantOfKeyLength klen with
    | none => exact .inl ⟨rfl, rfl⟩
    | some v =>
      refine .inr ⟨v, rfl, ?_⟩
      cases hk : s.readBuffer keyAddr v.keyLength with
      | none => exact .inl ⟨rfl, by simp only [hk]⟩
      | some key => exact .inr ⟨key, rfl, by simp only [hk]⟩

/-- Everything ENCRYPT and DECRYPT can do (R200, R215). -/
theorem runCipher_cases (sched : KeyState → List Word) (cipher : KeyState → Octets 16 → Octets 16)
    (inAddr outAddr : Nat) (s : State) :
    (s.engine? = none ∧ runCipher sched cipher inAddr outAddr s = .fault .noSuchInstance) ∨
    ∃ e, s.engine? = some e ∧
      ((e.key = none ∧ runCipher sched cipher inAddr outAddr s = .next (s.raiseStatus .notKeyed)) ∨
       ∃ k, e.key = some k ∧
        ((¬ (s.bufferReadable inAddr 16 ∧ s.bufferWritable outAddr 16) ∧
            runCipher sched cipher inAddr outAddr s = .next (s.raiseStatus .bufferFault)) ∨
         ∃ block, s.readBuffer inAddr 16 = some block ∧ s.bufferWritable outAddr 16 ∧
          ((hasWords k.variant (sched k) = true ∧
              runCipher sched cipher inAddr outAddr s = .next (s.commitBlock e outAddr (cipher k block))) ∨
           (hasWords k.variant (sched k) = false ∧
              runCipher sched cipher inAddr outAddr s = .refused .scheduleWordAbsent)))) := by
  unfold runCipher
  cases he : s.engine? with
  | none => exact .inl ⟨rfl, rfl⟩
  | some e =>
    refine .inr ⟨e, rfl, ?_⟩
    cases hk : e.key with
    | none => exact .inl ⟨rfl, by simp only [hk]⟩
    | some k =>
      refine .inr ⟨k, rfl, ?_⟩
      cases hb : s.readBuffer inAddr 16 with
      | none => exact .inl ⟨fun h => State.readBuffer_eq_none.1 hb h.1, by simp only [hk]⟩
      | some block =>
        by_cases hw : s.bufferWritable outAddr 16
        · refine .inr ⟨block, rfl, hw, ?_⟩
          cases hc : hasWords k.variant (sched k)
          · exact .inr ⟨rfl, by simp only [hk, if_pos hw, hc]; rfl⟩
          · exact .inl ⟨rfl, by simp only [hk, if_pos hw, hc]; rfl⟩
        · exact .inl ⟨fun h => hw h.2, by simp only [hk, if_neg hw]⟩

/-- Everything KEYLEN can do (R230). -/
theorem execKeylen_cases (s : State) :
    (s.engine? = none ∧ execKeylen s = .fault .noSuchInstance) ∨
    ∃ e, s.engine? = some e ∧
      ((e.key = none ∧ execKeylen s = .next (s.raiseStatus .notKeyed)) ∨
       ∃ k, e.key = some k ∧ execKeylen s = .next (s.respond .ok k.variant.keyLengthValue)) := by
  unfold execKeylen
  cases he : s.engine? with
  | none => exact .inl ⟨rfl, rfl⟩
  | some e =>
    refine .inr ⟨e, rfl, ?_⟩
    cases hk : e.key with
    | none => exact .inl ⟨rfl, by simp only [hk]⟩
    | some k => exact .inr ⟨k, rfl, by simp only [hk]⟩

/-- Everything BLKLEN can do (R231). -/
theorem execBlklen_cases (s : State) :
    (s.engine? = none ∧ execBlklen s = .fault .noSuchInstance) ∨
    ∃ e, s.engine? = some e ∧ execBlklen s = .next (s.respond .ok blockLengthValue) := by
  unfold execBlklen
  cases he : s.engine? with
  | none => exact .inl ⟨rfl, rfl⟩
  | some e => exact .inr ⟨e, rfl, rfl⟩

/-- The next states of any command, with what led to each: not keyed, a buffer that may not be accessed, a SETKEY that
failed or committed, a block committed, or a value reported. -/
theorem exec_next_cases {i : Instr} {s t : State} (h : exec i s = .next t) :
    ∃ e, s.engine? = some e ∧
      ((i ≠ .blklen ∧ Instr.isSetkey i = false ∧ e.key = none ∧ t = s.raiseStatus .notKeyed) ∨
       (∃ a b k, (i = .encrypt a b ∨ i = .decrypt a b) ∧ e.key = some k ∧
          ¬ (s.bufferReadable a 16 ∧ s.bufferWritable b 16) ∧ t = s.raiseStatus .bufferFault) ∨
       (∃ klen a, i = .setkey klen a ∧
          ((variantOfKeyLength klen = none ∧ t = s.failSetkey e .invalidKeyLength) ∨
           ∃ v, variantOfKeyLength klen = some v ∧
             ((s.readBuffer a v.keyLength = none ∧ t = s.failSetkey e .bufferFault) ∨
              ∃ key, s.readBuffer a v.keyLength = some key ∧ t = s.commitKey e (expandKey v key)))) ∨
       (∃ a b k block, e.key = some k ∧ s.readBuffer a 16 = some block ∧ s.bufferWritable b 16 ∧
          ((i = .encrypt a b ∧ hasWords k.variant k.W = true ∧ t = s.commitBlock e b (encryptBlock k block)) ∨
           (i = .decrypt a b ∧ hasWords k.variant k.Winv = true ∧ t = s.commitBlock e b (decryptBlock k block)))) ∨
       (∃ k, i = .keylen ∧ e.key = some k ∧ t = s.respond .ok k.variant.keyLengthValue) ∨
       (i = .blklen ∧ t = s.respond .ok blockLengthValue)) := by
  cases i with
  | setkey klen keyAddr =>
    change execSetkey klen keyAddr s = _ at h
    obtain ⟨-, h'⟩ | ⟨e, he, ⟨hv, h'⟩ | ⟨v, hv, ⟨hk, h'⟩ | ⟨key, hk, h'⟩⟩⟩ := execSetkey_cases klen keyAddr s <;>
      rw [h'] at h <;> cases h
    · exact ⟨e, he, .inr (.inr (.inl ⟨_, _, rfl, .inl ⟨hv, rfl⟩⟩))⟩
    · exact ⟨e, he, .inr (.inr (.inl ⟨_, _, rfl, .inr ⟨v, hv, .inl ⟨hk, rfl⟩⟩⟩))⟩
    · exact ⟨e, he, .inr (.inr (.inl ⟨_, _, rfl, .inr ⟨v, hv, .inr ⟨key, hk, rfl⟩⟩⟩))⟩
  | encrypt a b =>
    change runCipher KeyState.W encryptBlock a b s = _ at h
    obtain ⟨-, h'⟩ | ⟨e, he, ⟨hk, h'⟩ | ⟨k, hk, ⟨hn, h'⟩ | ⟨block, hb, hw, ⟨hc, h'⟩ | ⟨-, h'⟩⟩⟩⟩ :=
      runCipher_cases KeyState.W encryptBlock a b s <;> rw [h'] at h <;> cases h
    · exact ⟨e, he, .inl ⟨by simp, rfl, hk, rfl⟩⟩
    · exact ⟨e, he, .inr (.inl ⟨a, b, k, .inl rfl, hk, hn, rfl⟩)⟩
    · exact ⟨e, he, .inr (.inr (.inr (.inl ⟨a, b, k, block, hk, hb, hw, .inl ⟨rfl, hc, rfl⟩⟩)))⟩
  | decrypt a b =>
    change runCipher KeyState.Winv decryptBlock a b s = _ at h
    obtain ⟨-, h'⟩ | ⟨e, he, ⟨hk, h'⟩ | ⟨k, hk, ⟨hn, h'⟩ | ⟨block, hb, hw, ⟨hc, h'⟩ | ⟨-, h'⟩⟩⟩⟩ :=
      runCipher_cases KeyState.Winv decryptBlock a b s <;> rw [h'] at h <;> cases h
    · exact ⟨e, he, .inl ⟨by simp, rfl, hk, rfl⟩⟩
    · exact ⟨e, he, .inr (.inl ⟨a, b, k, .inr rfl, hk, hn, rfl⟩)⟩
    · exact ⟨e, he, .inr (.inr (.inr (.inl ⟨a, b, k, block, hk, hb, hw, .inr ⟨rfl, hc, rfl⟩⟩)))⟩
  | keylen =>
    change execKeylen s = _ at h
    obtain ⟨-, h'⟩ | ⟨e, he, ⟨hk, h'⟩ | ⟨k, hk, h'⟩⟩ := execKeylen_cases s <;> rw [h'] at h <;> cases h
    · exact ⟨e, he, .inl ⟨by simp, rfl, hk, rfl⟩⟩
    · exact ⟨e, he, .inr (.inr (.inr (.inr (.inl ⟨k, rfl, hk, rfl⟩))))⟩
  | blklen =>
    change execBlklen s = _ at h
    obtain ⟨-, h'⟩ | ⟨e, he, h'⟩ := execBlklen_cases s <;> rw [h'] at h <;> cases h
    exact ⟨e, he, .inr (.inr (.inr (.inr (.inr ⟨rfl, rfl⟩))))⟩

section frames
variable (s : State) (e : Engine) (st : Status) (k : KeyState) (outAddr : Nat) (out : Octets 16)

@[simp] theorem State.failSetkey_params : (s.failSetkey e st).params = s.params := rfl
@[simp] theorem State.failSetkey_engines : (s.failSetkey e st).engines =
    s.engines.set s.target (e.afterFailedSetkey s.params.setkeyFailPolicy) := rfl
@[simp] theorem State.failSetkey_mem : (s.failSetkey e st).mem = s.mem := rfl
@[simp] theorem State.failSetkey_prot : (s.failSetkey e st).prot = s.prot := rfl
@[simp] theorem State.failSetkey_inFlight : (s.failSetkey e st).inFlight = s.inFlight := rfl
@[simp] theorem State.failSetkey_queue : (s.failSetkey e st).queue = s.queue := rfl
@[simp] theorem State.failSetkey_responses : (s.failSetkey e st).responses =
    s.responses ++ [{ inst := s.target, status := st, value := 0 }] := rfl
@[simp] theorem State.failSetkey_target : (s.failSetkey e st).target = s.target := rfl
@[simp] theorem State.failSetkey_disturbed : (s.failSetkey e st).disturbed = s.disturbed := rfl
@[simp] theorem State.failSetkey_freeIdx : (s.failSetkey e st).freeIdx = s.freeIdx := rfl

@[simp] theorem State.commitKey_params : (s.commitKey e k).params = s.params := rfl
@[simp] theorem State.commitKey_engines : (s.commitKey e k).engines =
    s.engines.set s.target (Engine.releaseTemp { e with key := some k } s.freeIdx) := rfl
@[simp] theorem State.commitKey_mem : (s.commitKey e k).mem = s.mem := rfl
@[simp] theorem State.commitKey_prot : (s.commitKey e k).prot = s.prot := rfl
@[simp] theorem State.commitKey_inFlight : (s.commitKey e k).inFlight = s.inFlight := rfl
@[simp] theorem State.commitKey_queue : (s.commitKey e k).queue = s.queue := rfl
@[simp] theorem State.commitKey_responses : (s.commitKey e k).responses =
    s.responses ++ [{ inst := s.target, status := .ok, value := 0 }] := rfl
@[simp] theorem State.commitKey_target : (s.commitKey e k).target = s.target := rfl
@[simp] theorem State.commitKey_disturbed : (s.commitKey e k).disturbed = s.disturbed := rfl

@[simp] theorem State.commitBlock_params : (s.commitBlock e outAddr out).params = s.params := rfl
@[simp] theorem State.commitBlock_engines : (s.commitBlock e outAddr out).engines =
    s.engines.set s.target (e.releaseCipher s.freeIdx) := rfl
@[simp] theorem State.commitBlock_mem : (s.commitBlock e outAddr out).mem = s.mem.write outAddr out := by
  rw [State.commitBlock, State.respond_mem, State.spendFree_mem, State.setEngine_mem]
@[simp] theorem State.commitBlock_prot : (s.commitBlock e outAddr out).prot = s.prot := rfl
@[simp] theorem State.commitBlock_inFlight : (s.commitBlock e outAddr out).inFlight = s.inFlight := rfl
@[simp] theorem State.commitBlock_queue : (s.commitBlock e outAddr out).queue = s.queue := rfl
@[simp] theorem State.commitBlock_responses : (s.commitBlock e outAddr out).responses =
    s.responses ++ [{ inst := s.target, status := .ok, value := 0 }] := rfl
@[simp] theorem State.commitBlock_target : (s.commitBlock e outAddr out).target = s.target := rfl
@[simp] theorem State.commitBlock_disturbed : (s.commitBlock e outAddr out).disturbed = s.disturbed := rfl

end frames

/-- The engine of the selected instance, in terms of the list. -/
theorem State.engine?_eq {s : State} : s.engine? = s.engines[s.target]? := rfl

/-- The selected instance exists when it has an engine. -/
theorem State.target_lt_of_engine? {s : State} {e : Engine} (h : s.engine? = some e) :
    s.target < s.engines.length := (List.getElem?_eq_some_iff.1 h).1

/-- The selected instance after an update that replaces it and no other. -/
theorem State.engine?_set {s t : State} {e e' : Engine} (he : s.engine? = some e)
    (h : t.engines = s.engines.set s.target e') (ht : t.target = s.target) : t.engine? = some e' := by
  rw [State.engine?_eq, h, ht]; simp [State.target_lt_of_engine? he]

/-- The other instances after such an update (R48). -/
theorem State.otherEnginesSame_set {s t : State} {e : Engine} (h : t.engines = s.engines.set s.target e) :
    s.OtherEnginesSame t :=
  ⟨by simp [h], fun n hn => by rw [h, List.getElem?_set_ne (Ne.symm hn)]⟩

/-- The other instances when no engine changed. -/
theorem State.otherEnginesSame_of_eq {s t : State} (h : t.engines = s.engines) : s.OtherEnginesSame t :=
  ⟨by rw [h], fun _ _ => by rw [h]⟩

/-- Replacing the selected instance by itself changes nothing. -/
theorem State.set_engine?_self {s : State} {e : Engine} (he : s.engine? = some e) :
    s.engines.set s.target e = s.engines := by
  rw [State.engine?_eq] at he
  obtain ⟨h, rfl⟩ := List.getElem?_eq_some_iff.1 he
  simp

/-- The key lengths of R181 are those of the variants. -/
theorem variantOfKeyLength_of_toNat {klen : BitVec 8} {v : Variant} (h : klen.toNat = v.keyLength) :
    variantOfKeyLength klen = some v := by
  cases v
  · have : klen = 16 := BitVec.eq_of_toNat_eq h; subst this; rfl
  · have : klen = 24 := BitVec.eq_of_toNat_eq h; subst this; rfl
  · have : klen = 32 := BitVec.eq_of_toNat_eq h; subst this; rfl

/-- A length that selects a variant is the variant's, and the value KEYLEN reports for it. -/
theorem keyLength_of_variantOfKeyLength {klen : BitVec 8} {v : Variant} (h : variantOfKeyLength klen = some v) :
    klen.toNat = v.keyLength ∧ v.keyLengthValue = klen := by
  unfold variantOfKeyLength at h
  split at h
  · cases h; subst_vars; exact ⟨rfl, rfl⟩
  · split at h
    · cases h; subst_vars; exact ⟨rfl, rfl⟩
    · split at h
      · cases h; subst_vars; exact ⟨rfl, rfl⟩
      · cases h

/-- Everything a step can do: idle, or one host action. -/
theorem step_cases (s : State) :
    (s.queue = [] ∧ step s = .next s) ∨
    (∃ inst c q, s.queue = .command inst c :: q ∧ step s = runCommand inst c { s with queue := q }) ∨
    (∃ inst c q, s.queue = .issue inst c :: q ∧ step s = runIssue inst c { s with queue := q }) ∨
    (∃ k q, s.queue = .complete k :: q ∧ step s = runComplete k { s with queue := q }) ∨
    (∃ inst q, s.queue = .resetInst inst :: q ∧ step s = runReset inst { s with queue := q }) ∨
    (∃ a v q, s.queue = .hostStore a v :: q ∧ step s = runHostStore a v { s with queue := q }) := by
  unfold step runNext
  rcases hq : s.queue with _ | ⟨ev, q⟩
  · exact .inl ⟨rfl, rfl⟩
  · cases ev with
    | command inst c => exact .inr (.inl ⟨inst, c, q, rfl, rfl⟩)
    | issue inst c => exact .inr (.inr (.inl ⟨inst, c, q, rfl, rfl⟩))
    | complete k => exact .inr (.inr (.inr (.inl ⟨k, q, rfl, rfl⟩)))
    | resetInst inst => exact .inr (.inr (.inr (.inr (.inl ⟨inst, q, rfl, rfl⟩))))
    | hostStore a v => exact .inr (.inr (.inr (.inr (.inr ⟨a, v, q, rfl, rfl⟩))))

end Sys2Proof.Machine
end

