-- ==== Sys2Proof/Laws/Port.lean ====
section
/-! SUPPORT. One lemma for each action of the host, saying once everything it can do, and what the marking of disturbed
commands keeps. -/

namespace Sys2Proof.Machine

/-- Everything a command issued and waited for can do (R80, R98, R255). -/
theorem runCommand_cases (inst : Nat) (c : Command) (s : State) :
    (s.engines.length ≤ inst ∧ runCommand inst c s = .fault .noSuchInstance) ∨
    (inst < s.engines.length ∧
      ((∃ err, decode c = .error err ∧
          runCommand inst c s = .next ((s.select inst false).raiseStatus .illegalCommand)) ∨
       ∃ i, decode c = .ok i ∧
        ((s.rekeyClash inst i = true ∧ runCommand inst c s = .next (s.abortRekey inst)) ∨
         (s.rekeyClash inst i = false ∧ runCommand inst c s =
            exec i ({ s with inFlight := disturbBy i s.inFlight }.select inst (s.bufferClash i)))))) := by
  unfold runCommand State.hasInstance
  by_cases hi : inst < s.engines.length
  · refine .inr ⟨hi, ?_⟩
    rw [if_pos (decide_eq_true hi)]
    rcases hd : decode c with err | i
    · exact .inl ⟨err, rfl, rfl⟩
    · refine .inr ⟨i, rfl, ?_⟩
      cases hc : s.rekeyClash inst i
      · exact .inr ⟨rfl, by simp only [hc]; rfl⟩
      · exact .inl ⟨rfl, by simp only [hc]; rfl⟩
  · exact .inl ⟨Nat.le_of_not_lt hi, by rw [if_neg (by simpa using hi)]⟩

/-- Everything a command issued without waiting can do (R81, R98, R255). -/
theorem runIssue_cases (inst : Nat) (c : Command) (s : State) :
    (s.engines.length ≤ inst ∧ runIssue inst c s = .fault .noSuchInstance) ∨
    (inst < s.engines.length ∧
      ((∃ err, decode c = .error err ∧
          runIssue inst c s = .next ((s.select inst false).raiseStatus .illegalCommand)) ∨
       ∃ i, decode c = .ok i ∧
        ((s.rekeyClash inst i = true ∧ runIssue inst c s = .next (s.abortRekey inst)) ∨
         (s.rekeyClash inst i = false ∧ runIssue inst c s = .next { s with
            inFlight := disturbBy i s.inFlight ++
              [{ inst := inst, instr := i, disturbed := s.bufferClash i }] })))) := by
  unfold runIssue State.hasInstance
  by_cases hi : inst < s.engines.length
  · refine .inr ⟨hi, ?_⟩
    rw [if_pos (decide_eq_true hi)]
    rcases hd : decode c with err | i
    · exact .inl ⟨err, rfl, rfl⟩
    · refine .inr ⟨i, rfl, ?_⟩
      cases hc : s.rekeyClash inst i
      · exact .inr ⟨rfl, by simp only [hc]; rfl⟩
      · exact .inl ⟨rfl, by simp only [hc]; rfl⟩
  · exact .inl ⟨Nat.le_of_not_lt hi, by rw [if_neg (by simpa using hi)]⟩

/-- Everything the end of a command in flight can do (R81). -/
theorem runComplete_cases (k : Nat) (s : State) :
    (s.inFlight.length ≤ k ∧ runComplete k s = .fault .noSuchCommand) ∨
    (∃ f, s.inFlight[k]? = some f ∧ runComplete k s =
      exec f.instr ({ s with inFlight := s.inFlight.eraseIdx k }.select f.inst f.disturbed)) := by
  unfold runComplete
  cases hf : s.inFlight[k]? with
  | none => exact .inl ⟨List.getElem?_eq_none_iff.1 hf, rfl⟩
  | some f => exact .inr ⟨f, rfl, rfl⟩

/-- Everything a reset can do (R280, R281). -/
theorem runReset_cases (inst : Nat) (s : State) :
    (s.engines.length ≤ inst ∧ runReset inst s = .fault .noSuchInstance) ∨
    (inst < s.engines.length ∧
      ((s.busy inst = true ∧ runReset inst s = .fault .resetDuringCommand) ∨
       (s.busy inst = false ∧ runReset inst s =
          .next (State.spendFree { s with engines := s.engines.set inst (Engine.resetAt s.freeIdx) })))) := by
  unfold runReset State.hasInstance
  by_cases hi : inst < s.engines.length
  · refine .inr ⟨hi, ?_⟩
    rw [if_pos (decide_eq_true hi)]
    cases s.busy inst
    · exact .inr ⟨rfl, rfl⟩
    · exact .inl ⟨rfl, rfl⟩
  · exact .inl ⟨Nat.le_of_not_lt hi, by rw [if_neg (by simpa using hi)]⟩

/-- Everything a host store can do (R61, R285). -/
theorem runHostStore_cases (a : Nat) (v : Byte) (s : State) :
    (2 ^ s.params.addrW ≤ a ∧ runHostStore a v s = .fault .hostAddressOutside) ∨
    (a < 2 ^ s.params.addrW ∧
      runHostStore a v s = .next { s with mem := s.mem.set a v, inFlight := disturbAt a s.inFlight }) := by
  unfold runHostStore
  by_cases ha : a < 2 ^ s.params.addrW
  · exact .inr ⟨ha, if_pos ha⟩
  · exact .inl ⟨Nat.le_of_not_lt ha, if_neg ha⟩

/-- A marking changes no command in flight but its mark. -/
def KeepsCommand (f : InFlight → InFlight) : Prop := ∀ x, (f x).inst = x.inst ∧ (f x).instr = x.instr

/-- `disturbBy` is a marking. -/
theorem disturbBy_eq_map (i : Instr) : ∃ f, KeepsCommand f ∧ ∀ fs, disturbBy i fs = fs.map f :=
  ⟨_, fun x => by split <;> exact ⟨rfl, rfl⟩, fun _ => rfl⟩

/-- `disturbAt` is a marking. -/
theorem disturbAt_eq_map (a : Nat) : ∃ f, KeepsCommand f ∧ ∀ fs, disturbAt a fs = fs.map f :=
  ⟨_, fun x => by split <;> exact ⟨rfl, rfl⟩, fun _ => rfl⟩

/-- The two buffers have an address in common exactly when they overlap. -/
theorem Buffer.overlaps_iff {b c : Buffer} (hb : 0 < b.size) (hc : 0 < c.size) :
    b.overlaps c = true ↔ ∃ a, b.contains a = true ∧ c.contains a = true := by
  simp only [Buffer.overlaps, Buffer.contains, Bool.and_eq_true, decide_eq_true_eq]
  refine ⟨fun h => ⟨max b.base c.base, by omega⟩, fun ⟨a, h⟩ => by omega⟩

/-- The lengths of R181 and no other select a variant. -/
theorem variantOfKeyLength_isSome {klen : BitVec 8} :
    (variantOfKeyLength klen).isSome = true ↔ klen = 16 ∨ klen = 24 ∨ klen = 32 := by
  refine ⟨fun h => ?_, by rintro (rfl | rfl | rfl) <;> rfl⟩
  obtain ⟨v, hv⟩ := Option.isSome_iff_exists.1 h
  rw [← (keyLength_of_variantOfKeyLength hv).2]
  cases v <;> decide

/-- The octets a command reads are those of its read buffers. -/
theorem readBuffers_contains {i : Instr} {a : Nat} :
    (∃ b ∈ readBuffers i, b.contains a = true) ↔ Instr.ReadsAt i a := by
  cases i with
  | setkey klen keyAddr =>
    simp only [readBuffers, Instr.ReadsAt, ← variantOfKeyLength_isSome]
    cases hv : variantOfKeyLength klen with
    | none => simp
    | some v => simp [Buffer.contains, (keyLength_of_variantOfKeyLength hv).1]
  | encrypt a b => simp [readBuffers, Instr.ReadsAt, Buffer.contains]
  | decrypt a b => simp [readBuffers, Instr.ReadsAt, Buffer.contains]
  | keylen => simp [readBuffers, Instr.ReadsAt]
  | blklen => simp [readBuffers, Instr.ReadsAt]

/-- The octets a command writes are those of its write buffers. -/
theorem writeBuffers_contains {i : Instr} {a : Nat} :
    (∃ b ∈ writeBuffers i, b.contains a = true) ↔ Instr.WritesAt i a := by
  cases i <;> simp [writeBuffers, Instr.WritesAt, Buffer.contains]

/-- No buffer of a command is empty. -/
theorem buffer_size_pos {i : Instr} {b : Buffer} (h : b ∈ readBuffers i ++ writeBuffers i) : 0 < b.size := by
  cases i with
  | setkey klen keyAddr =>
    simp only [readBuffers, writeBuffers, List.append_nil] at h
    cases hv : variantOfKeyLength klen with
    | none => simp [hv] at h
    | some v =>
      simp only [hv, List.mem_singleton] at h
      subst h
      cases v <;> exact Nat.zero_lt_succ _
  | encrypt a b => simp [readBuffers, writeBuffers] at h; rcases h with rfl | rfl <;> exact Nat.zero_lt_succ _
  | decrypt a b => simp [readBuffers, writeBuffers] at h; rcases h with rfl | rfl <;> exact Nat.zero_lt_succ _
  | keylen => simp [readBuffers, writeBuffers] at h
  | blklen => simp [readBuffers, writeBuffers] at h

/-- The octets a command touches are those of its buffers. -/
theorem buffers_contain {i : Instr} {a : Nat} :
    (∃ b ∈ readBuffers i ++ writeBuffers i, b.contains a = true) ↔ Instr.Touches i a := by
  simp only [Instr.Touches, ← readBuffers_contains, ← writeBuffers_contains, List.mem_append]
  constructor
  · rintro ⟨b, hb | hb, ha⟩
    · exact .inl ⟨b, hb, ha⟩
    · exact .inr ⟨b, hb, ha⟩
  · rintro (⟨b, hb, ha⟩ | ⟨b, hb, ha⟩)
    · exact ⟨b, .inl hb, ha⟩
    · exact ⟨b, .inr hb, ha⟩

/-- A command writes into another's buffers when it writes an octet that the other touches. -/
theorem writesInto_iff {i j : Instr} :
    writesInto i j = true ↔ ∃ a, Instr.WritesAt i a ∧ Instr.Touches j a := by
  simp only [writesInto, List.any_eq_true, ← writeBuffers_contains, ← buffers_contain]
  constructor
  · rintro ⟨b, hb, c, hc, h⟩
    obtain ⟨a, hba, hca⟩ := (Buffer.overlaps_iff (buffer_size_pos (List.mem_append_right _ hb))
      (buffer_size_pos hc)).1 h
    exact ⟨a, ⟨b, hb, hba⟩, c, hc, hca⟩
  · rintro ⟨a, ⟨b, hb, hba⟩, c, hc, hca⟩
    exact ⟨b, hb, c, hc, (Buffer.overlaps_iff (buffer_size_pos (List.mem_append_right _ hb))
      (buffer_size_pos hc)).2 ⟨a, hba, hca⟩⟩

/-- The clash of R81, octet by octet. -/
theorem buffersClash_iff {i j : Instr} : buffersClash i j = true ↔ Instr.Clash i j := by
  simp only [buffersClash, Bool.or_eq_true, writesInto_iff, Instr.Clash, exists_or]

/-- A command clashes with what is in flight when it clashes with one of them. -/
theorem State.bufferClash_iff {s : State} {i : Instr} :
    s.bufferClash i = true ↔ ∃ f ∈ s.inFlight, Instr.Clash i f.instr := by
  simp only [State.bufferClash, List.any_eq_true, buffersClash_iff]

/-- A command that may join those in flight is no clash of R82. -/
theorem State.rekeyClash_of_mayJoin {s : State} {inst : Nat} {i : Instr} (h : s.MayJoin inst i) :
    s.rekeyClash inst i = false := by
  simp only [State.rekeyClash, List.any_eq_false, Bool.and_eq_true, decide_eq_true_eq, not_and]
  intro f hf hi
  simp [h f hf hi]

/-- A list marked element by element. -/
theorem markedWhere_map {P : Instr → Prop} {p : Instr → Bool} (h : ∀ i, p i = true ↔ P i) (fs : List InFlight) :
    MarkedWhere P fs (fs.map fun f => if p f.instr then { f with disturbed := true } else f) := by
  refine ⟨by simp, fun n f hf => ⟨_, by rw [List.getElem?_map, hf]; rfl, ?_⟩⟩
  by_cases hp : p f.instr = true
  · simp [hp, (h _).1 hp]
  · simp [hp, mt (h _).2 hp]

/-- Issuing a command marks exactly the commands it clashes with (R288). -/
theorem disturbBy_marked (i : Instr) (fs : List InFlight) : MarkedWhere (Instr.Clash i) fs (disturbBy i fs) :=
  markedWhere_map (fun _ => buffersClash_iff) fs

/-- A store at an address marks exactly the commands that touch it (R288). -/
theorem disturbAt_marked (a : Nat) (fs : List InFlight) :
    MarkedWhere (fun i => Instr.Touches i a) fs (disturbAt a fs) :=
  markedWhere_map (p := fun i => (readBuffers i ++ writeBuffers i).any fun b => b.contains a)
    (fun _ => List.any_eq_true.trans buffers_contain) fs

/-- Where nothing clashes, nothing is marked. -/
theorem disturbBy_of_no_clash {i : Instr} {fs : List InFlight} (h : ∀ f ∈ fs, ¬ Instr.Clash i f.instr) :
    disturbBy i fs = fs := by
  refine (List.map_congr_left fun f hf => ?_).trans (List.map_id fs)
  rw [if_neg (mt buffersClash_iff.1 (h f hf)), id]

@[simp] theorem Engine.resetAt_key (k : Nat) : (Engine.resetAt k).key = none := rfl
@[simp] theorem Engine.resetAt_backend (k : Nat) : (Engine.resetAt k).backend = .software := rfl

section abortRekey
variable (s : State) (inst : Nat)

@[simp] theorem State.abortRekey_params : (s.abortRekey inst).params = s.params := rfl
@[simp] theorem State.abortRekey_mem : (s.abortRekey inst).mem = s.mem := rfl
@[simp] theorem State.abortRekey_prot : (s.abortRekey inst).prot = s.prot := rfl
@[simp] theorem State.abortRekey_queue : (s.abortRekey inst).queue = s.queue := rfl
@[simp] theorem State.abortRekey_inFlight :
    (s.abortRekey inst).inFlight = s.inFlight.filter fun f => !decide (f.inst = inst) := rfl
@[simp] theorem State.abortRekey_engines : (s.abortRekey inst).engines =
    s.engines.modify inst fun e => ((e.unkey).releaseCipher s.freeIdx).releaseTemp s.freeIdx := rfl

/-- Every command in flight on the instance, and the one issued, answer `ConcurrentRekey` (R255). -/
theorem State.abortRekey_responses : (s.abortRekey inst).responses = s.responses ++
    List.replicate ((s.inFlight.filter fun f => decide (f.inst = inst)).length + 1) (rekeyResponse inst) := by
  rw [List.replicate_succ', ← List.map_const']; rfl

end abortRekey

end Sys2Proof.Machine
end

