-- ==== Sys2Proof/Laws/Schedule.lean ====
section
/-! SUPPORT. The schedules: their lengths, and the word at each index. -/

namespace Sys2Proof.Machine

/-- The expansion adds the number of words asked for. -/
@[simp] theorem length_expandWords (v : Variant) (n : Nat) (W : List Word) (h) :
    (expandWords v n W h).length = W.length + n := by
  induction n generalizing W with
  | zero => rfl
  | succ n ih => rw [expandWords, ih]; simp; omega

/-- The expansion leaves the words already there. -/
theorem getElem?_expandWords_old (v : Variant) (n : Nat) (W : List Word) (h) {i : Nat} (hi : i < W.length) :
    (expandWords v n W h)[i]? = W[i]? := by
  induction n generalizing W with
  | zero => rfl
  | succ n ih => rw [expandWords, ih _ _ (by simp; omega), List.getElem?_append_left hi]

/-- A schedule word that is there. -/
theorem schedWord_eq_of_getElem? {W : List Word} {i : Nat} {w : Word} (h : W[i]? = some w) : schedWord W i = w := by
  simp [schedWord, List.getD, h]

/-- Schedules that agree at an index read alike there. -/
theorem schedWord_congr {W V : List Word} {i : Nat} (h : W[i]? = V[i]?) : schedWord W i = schedWord V i := by
  simp [schedWord, List.getD, h]

/-- Each added word is made of the words before it (R184), read in the finished schedule. -/
theorem schedWord_expandWords (v : Variant) (n : Nat) (W : List Word) (h : v.nk ≤ W.length ∧ W.length + n ≤ v.words)
    {i : Nat} (hi : W.length ≤ i) (hn : i < W.length + n) :
    schedWord (expandWords v n W h) i = schedWord (expandWords v n W h) (i - v.nk) ^^^
      scheduleTemp v i ⟨by omega, by omega⟩ (schedWord (expandWords v n W h) (i - 1)) := by
  have hnk : 0 < v.nk := by cases v <;> decide
  induction n generalizing W with
  | zero => omega
  | succ n ih =>
    simp only [expandWords]
    by_cases hiW : i = W.length
    · subst hiW
      have old : ∀ j, j < W.length → schedWord (expandWords v n (W ++ [nextWord v W ⟨h.1, by omega⟩])
          (expandWords_bounds h)) j = schedWord W j := by
        intro j hj
        refine schedWord_congr ?_
        rw [getElem?_expandWords_old _ _ _ _ (by simp; omega), List.getElem?_append_left hj]
      rw [old (W.length - v.nk) (by omega), old (W.length - 1) (by omega)]
      refine schedWord_eq_of_getElem? ?_
      rw [getElem?_expandWords_old _ _ _ _ (by simp)]
      simp [nextWord]
    · exact ih _ _ (by simp; omega) (by simp; omega)

@[simp] theorem length_keyWords (v : Variant) (key : Octets v.keyLength) : (keyWords v key).length = v.nk := by
  simp [keyWords]

/-- The forward schedule has exactly `4·(Nr+1)` words (R35). -/
@[simp] theorem length_forwardSchedule (v : Variant) (key : Octets v.keyLength) :
    (forwardSchedule v key).length = v.words := by
  cases v <;> simp [forwardSchedule, Variant.words, Variant.nr, Variant.nk]

/-- The inverse schedule is as long as the forward one (R36). -/
@[simp] theorem length_inverseSchedule (v : Variant) (W : List Word) : (inverseSchedule v W).length = W.length := by
  simp [inverseSchedule]

/-- The word at an index of the inverse schedule (R186). -/
theorem getElem?_inverseSchedule (v : Variant) (W : List Word) (i : Nat) :
    (inverseSchedule v W)[i]? =
      (W[i]?).map fun w => if 4 ≤ i ∧ i < 4 * v.nr then fastInvMixColumn w else w := by
  simp [inverseSchedule]

/-- The forward schedule of an expanded key has all the words ENCRYPT reads. -/
@[simp] theorem hasWords_expandKey_W (v : Variant) (key : Octets v.keyLength) :
    hasWords v (expandKey v key).W = true := by
  simp [hasWords, expandKey]

/-- The inverse schedule of an expanded key has all the words DECRYPT reads. -/
@[simp] theorem hasWords_expandKey_Winv (v : Variant) (key : Octets v.keyLength) :
    hasWords v (expandKey v key).Winv = true := by
  simp [hasWords, expandKey]

end Sys2Proof.Machine
end

