-- ==== Sys2Proof/Tests/Slice0.lean ====
section
/-! SUPPORT. Tests of one decode or one step each, with expected results from spec/95_test_vectors.md (and the rules named);
then, for every obligation that has hypotheses, a theorem `witness_<Name>` with states and operands that meet them. -/

open Sys2Proof Sys2Proof.Machine

namespace Sys2Proof.Tests

/-! ### Helpers -/

/-- The `n` octets of a hex string, read left to right (R67). -/
def hexList (n x : Nat) : List Byte := List.ofFn fun j : Fin n => BitVec.ofNat 8 (x >>> (8 * (n - 1 - j)))

/-- A hex string as a value of `n` octets. -/
def hexOcts (n x : Nat) : Octets n := fun j => BitVec.ofNat 8 (x >>> (8 * (n - 1 - j)))

/-- The key of the source's vector S3; its first 24 and 16 octets are those of S2 and S1. -/
def key256 : Octets 32 := hexOcts 32 0x000102030405060708090a0b0c0d0e0f101112131415161718191a1b1c1d1e1f

/-- The plaintext of the source's vectors. -/
def plain : Octets 16 := hexOcts 16 0x00112233445566778899aabbccddeeff

/-- The key of vector S1, expanded. -/
def keyS1 : KeyState := expandKey .aes128 (hexOcts 16 0x000102030405060708090a0b0c0d0e0f)

/-- Host memory of the tests: the key at 0x1000, the plaintext at 0x2000 with eight octets 55 behind it, S1's ciphertext
at 0x3000, octets that only the engine's writes may touch at 0x4000, and the last octet of the address space. -/
def demoMem : Memory :=
  Memory.set (Memory.writeList (Memory.writeList (Memory.writeList (Memory.writeList [] 0x1000 (List.ofFn key256))
    0x2000 (hexList 24 0x00112233445566778899aabbccddeeff5555555555555555))
    0x3000 (hexList 16 0x69c4e0d86a7b0430d8cdb78070b4c55a)) 0x4000 (hexList 16 0)) 0xffffffff 0

/-- Two instances: number 0 as after reset, number 1 keyed with S1's key. The key buffer may not be written, the buffer
at 0x4000 may not be read. -/
def demo : State :=
  { State.reset with
    engines := [Engine.reset, { Engine.reset with key := some keyS1 }]
    mem := demoMem
    prot := [{ base := 0x1000, size := 32, access := .readOnly }, { base := 0x4000, size := 16, access := .writeOnly }] }

/-- `demo` with the keyed instance selected. -/
def keyed : State := demo.select 1 false

/-- `demo` with a host's actions waiting. -/
def demoQ (q : List HostEvent) : State := { demo with queue := q }

/-- The state a step or a meaning answers. -/
def nextOf (o : Host.Outcome State Fault Refusal) : Option State :=
  match o with
  | .next t => some t
  | .fault _ => none
  | .refused _ => none

/-- The responses it has given by then. -/
def answers (o : Host.Outcome State Fault Refusal) : Option (List (Nat × Status × BitVec 8)) :=
  (nextOf o).map fun t => t.responses.map fun r => (r.inst, r.status, r.value)

/-- The `n` octets at an address after it. -/
def octetsAt (o : Host.Outcome State Fault Refusal) (a n : Nat) : Option (List Byte) :=
  (nextOf o).bind fun t => (List.range n).mapM fun j => Memory.get? t.mem (a + j)

/-- Which instances are keyed after it. -/
def keyedAfter (o : Host.Outcome State Fault Refusal) : Option (List Bool) :=
  (nextOf o).map fun t => t.engines.map Engine.keyed

/-- Words of the two schedules of an instance after it. -/
def scheduleAfter (o : Host.Outcome State Fault Refusal) (inst i : Nat) : Option (Word × Word) :=
  (nextOf o).bind fun t => (t.engines[inst]?).bind fun e => e.key.bind fun k =>
    (k.W[i]?).bind fun w => (k.Winv[i]?).map fun w' => (w, w')

/-- A meaning that gives a response answers a next state. -/
theorem answered {i : Instr} {s : State} {st : Status} {v : BitVec 8}
    (h : (nextOf (exec i s)).map State.responses = some (s.responses ++ [⟨s.target, st, v⟩])) :
    ∃ t, exec i s = .next t ∧ s.Answers t st v := by
  cases hx : exec i s with
  | next t => rw [hx] at h; exact ⟨t, rfl, Option.some.inj h⟩
  | fault f => rw [hx] at h; cases h
  | refused r => rw [hx] at h; cases h

/-- A step that has a next state answers it. -/
theorem stepped {s : State} (h : (nextOf (step s)).isSome = true) : ∃ t, step s = .next t := by
  cases hx : step s with
  | next t => exact ⟨t, rfl⟩
  | fault f => rw [hx] at h; cases h
  | refused r => rw [hx] at h; cases h

/-! ### Well-formedness: an ill-formed term for each check, refused -/

theorem test_wf_setkey_address : Instr.wf Params.default (.setkey 16 0x100000000) = false := by decide
theorem test_wf_encrypt_in : Instr.wf Params.default (.encrypt 0x100000000 0) = false := by decide
theorem test_wf_encrypt_out : Instr.wf Params.default (.encrypt 0 0x100000000) = false := by decide
theorem test_wf_decrypt_in : Instr.wf Params.default (.decrypt 0x100000000 0) = false := by decide
theorem test_wf_decrypt_out : Instr.wf Params.default (.decrypt 0 0x100000000) = false := by decide
theorem test_wf_record : Command.wf Params.default ⟨0x40000000, 0x100000000, 0⟩ = false ∧
    Command.wf Params.default ⟨0x40000000, 0, 0x100000000⟩ = false := by decide

/-! ### Decoding, each word written out from the fields of R92 and R97 -/

/-- `opcode 0001`, 20 zeros, `klen` 00100000. -/
theorem test_decode_setkey :
    decode ⟨0b0001_00000000000000000000_00100000, 0x1000, 7⟩ = .ok (.setkey 32 0x1000) := by decide
/-- `opcode 0010`, 28 zeros. -/
theorem test_decode_encrypt :
    decode ⟨0b0010_0000000000000000000000000000, 0x2000, 0x3000⟩ = .ok (.encrypt 0x2000 0x3000) := by decide
/-- `opcode 0011`, 28 zeros. -/
theorem test_decode_decrypt :
    decode ⟨0b0011_0000000000000000000000000000, 0x2000, 0x3000⟩ = .ok (.decrypt 0x2000 0x3000) := by decide
/-- `opcode 0100`, 28 zeros. -/
theorem test_decode_keylen : decode ⟨0b0100_0000000000000000000000000000, 1, 2⟩ = .ok .keylen := by decide
/-- `opcode 0101`, 28 zeros. -/
theorem test_decode_blklen : decode ⟨0b0101_0000000000000000000000000000, 1, 2⟩ = .ok .blklen := by decide
/-- Section 2.8: the words with a must-be-zero bit set. -/
theorem test_decode_must_be_zero :
    decode ⟨0x10000110, 0, 0⟩ = .error .mustBeZero ∧ decode ⟨0x18000010, 0, 0⟩ = .error .mustBeZero ∧
    decode ⟨0x20000001, 0, 0⟩ = .error .mustBeZero ∧ decode ⟨0x30000010, 0, 0⟩ = .error .mustBeZero ∧
    decode ⟨0x50000020, 0, 0⟩ = .error .mustBeZero := by decide
/-- Section 2.8: opcodes 0 and 6 to 15. -/
theorem test_decode_reserved :
    decode ⟨0x00000000, 0, 0⟩ = .error .reservedOpcode ∧ decode ⟨0x60000000, 0, 0⟩ = .error .reservedOpcode ∧
    decode ⟨0x7fffffff, 0, 0⟩ = .error .reservedOpcode ∧ decode ⟨0x80000000, 0, 0⟩ = .error .reservedOpcode ∧
    decode ⟨0xffffffff, 0, 0⟩ = .error .reservedOpcode := by decide

/-! ### Tables and primitives (section 2.1) -/

theorem test_xtime_and_products : xtime 0x57 = 0xae ∧ xtime 0xae = 0x47 ∧ xtime 0x80 = 0x1b ∧ gmul 0x57 0x13 = 0xfe ∧
    gmul 0x57 0x83 = 0xc1 ∧ gmul 0x02 0x87 = 0x15 ∧ gmul 0x03 0x6e = 0xb2 := by decide
theorem test_sboxes : sbox 0x10 = 0xca ∧ sbox 0x53 = 0xed ∧ sbox 0x7f = 0xd2 ∧ sbox 0xff = 0x16 ∧ invSbox 0xed = 0x53 ∧
    invSbox 0xff = 0x7d ∧ invSbox 0x7c = 0x01 := by decide
theorem test_enc_tables : enc0 0x53 = 0xc1eded2c ∧ enc1 0x53 = 0x2cc1eded ∧ enc2 0x53 = 0xed2cc1ed ∧
    enc3 0x53 = 0xeded2cc1 := by decide
theorem test_dec_tables : dec0 0x53 = 0x4de6bd46 ∧ dec1 0x53 = 0x464de6bd ∧ dec2 0x53 = 0xbd464de6 ∧
    dec3 0x53 = 0xe6bd464d := by decide
theorem test_word_primitives : rotWord 0x12345678 = 0x34567812 ∧ subWord 0xcf4f3c09 = 0x8a84eb01 ∧
    loadWord plain 2 (by decide) = 0x8899aabb ∧ fastInvMixColumn 0xd6aa74fd = 0x8c56dff0 ∧
    fastInvMixColumn 0x01000000 = 0x0e090d0b ∧
    (List.ofFn (storeWord 0x01020304 2 plain)).drop 7 = [0x77, 1, 2, 3, 4, 0xcc, 0xdd, 0xee, 0xff] := by decide
theorem test_round_primitives :
    let s : Columns := ⟨0x00102030, 0x40506070, 0x8090a0b0, 0xc0d0e0f0⟩
    Columns.ofFn (fun c => mixColShiftRow c s) = ⟨0x5f726415, 0x57f5bc92, 0xf7be3b29, 0x1db9f91a⟩ ∧
    Columns.ofFn (fun c => subBytesShiftRows c s) = ⟨0x6353e08c, 0x0960e104, 0xcd70b751, 0xbacad0e7⟩ ∧
    Columns.ofFn (fun c => invMixColShiftRow c s) = ⟨0x9822dcc3, 0xff1d8939, 0x8856cc07, 0x854d28f1⟩ ∧
    Columns.ofFn (fun c => invSubBytesShiftRows c s) = ⟨0x526047d0, 0x727ca0fc, 0x3a6c5417, 0x1f969008⟩ := by decide

/-! ### One step of each command -/

/-- Section 2.2, AES-256: words 8, 12 (the second SubWord) and 59 of both schedules; `(OK, 0)`. -/
theorem test_setkey_commits :
    let o := step (demoQ [.command 0 ⟨0x10000020, 0x1000, 0⟩])
    answers o = some [(0, .ok, 0)] ∧ keyedAfter o = some [true, true] ∧
    scheduleAfter o 0 8 = some (0xa573c29f, 0x2a2840c9) ∧ scheduleAfter o 0 12 = some (0x1651a8cd, 0x7fd7850f) ∧
    scheduleAfter o 0 59 = some (0x6d68de36, 0x6d68de36) ∧ scheduleAfter o 0 60 = none := by decide

/-- Section 2.9: a length that is no key length fails before the buffer is looked at, and an instance that was keyed is
not any more; a buffer that would pass the top of the address space is a `BufferFault`. -/
theorem test_setkey_fails :
    answers (exec (.setkey 15 0x9000) keyed) = some [(1, .invalidKeyLength, 0)] ∧
    keyedAfter (exec (.setkey 15 0x9000) keyed) = some [false, false] ∧
    keyedAfter (exec (.setkey 15 0x9000) { keyed with params := { addrW := 32, setkeyFailPolicy := .preserve } }) =
      some [false, true] ∧
    answers (exec (.setkey 16 0xfffffff8) demo) = some [(0, .bufferFault, 0)] := by decide

/-- Program P4, command 1: the output buffer overlaps the input buffer. -/
theorem test_encrypt_overlapping :
    let o := exec (.encrypt 0x2000 0x2008) keyed
    answers o = some [(1, .ok, 0)] ∧
    octetsAt o 0x2007 2 = some [0x77, 0x69] ∧ octetsAt o 0x2017 1 = some [0x5a] := by decide +kernel

/-- Section 2.9 and R76: no key; an input that may not be read; an output that may not be written. -/
theorem test_encrypt_faults :
    answers (exec (.encrypt 0x2000 0x3000) demo) = some [(0, .notKeyed, 0)] ∧
    answers (exec (.encrypt 0x4000 0x3000) keyed) = some [(1, .bufferFault, 0)] ∧
    answers (exec (.encrypt 0x2000 0x1000) keyed) = some [(1, .bufferFault, 0)] := by decide

/-- Vector S1, decrypted in place. -/
theorem test_decrypt_in_place :
    let o := exec (.decrypt 0x3000 0x3000) keyed
    answers o = some [(1, .ok, 0)] ∧
    octetsAt o 0x3001 1 = some [0x11] ∧ octetsAt o 0x300e 1 = some [0xee] := by decide +kernel

/-- Section 2.9: nothing is written when the output buffer is not accessible. -/
theorem test_decrypt_faults :
    let o := exec (.decrypt 0x3000 0x2ff8) keyed
    answers o = some [(1, .bufferFault, 0)] ∧ octetsAt o 0x3000 2 = some [0x69, 0xc4] := by decide

theorem test_keylen : answers (exec .keylen keyed) = some [(1, .ok, 16)] ∧
    answers (exec .keylen demo) = some [(0, .notKeyed, 0)] := by decide

theorem test_blklen : answers (exec .blklen keyed) = some [(1, .ok, 16)] ∧
    answers (exec .blklen demo) = some [(0, .ok, 16)] := by decide

/-! ### The port -/

/-- Program P5: the all-zero word is answered `IllegalCommand`, and the keyed instance stays keyed. -/
theorem test_illegal_word :
    let o := step (demoQ [.command 1 ⟨0, 0, 0⟩])
    answers o = some [(1, .illegalCommand, 0)] ∧ keyedAfter o = some [false, true] := by decide

/-- R255: a SETKEY issued while an ENCRYPT is in flight on the instance ends both with `ConcurrentRekey`. -/
theorem test_concurrent_rekey :
    let s := { demoQ [.issue 1 ⟨0x10000010, 0x1000, 0⟩] with inFlight := [⟨1, .encrypt 0x2000 0x3000, false⟩] }
    answers (step s) = some [(1, .concurrentRekey, 0), (1, .concurrentRekey, 0)] ∧
    keyedAfter (step s) = some [false, false] := by decide

/-- R288: a store of the host into the input buffer of a command in flight marks the command, and a command issued to
write that buffer is marked with it. -/
theorem test_marks :
    let s := { demoQ [.hostStore 0x200f 0xaa] with
      inFlight := [⟨1, .encrypt 0x2000 0x3000, false⟩, ⟨0, .keylen, false⟩] }
    (nextOf (step s)).map (fun t => t.inFlight.map InFlight.disturbed) = some [true, false] ∧
    (nextOf (step { s with queue := [.issue 1 ⟨0x30000000, 0x3000, 0x1ff1⟩] })).map
      (fun t => t.inFlight.map InFlight.disturbed) = some [true, false, true] := by decide

/-- The word placed for fetching is what the next step from reset runs: BLKLEN answers 16 at once. -/
theorem test_fetch_word_after_reset :
    answers (step (State.reset.withFetchWord 32 0x50000000)) = some [(0, .ok, 16)] ∧
    decodeTableWord 96 0x00003000_00002000_20000000 = some (.encrypt 0x2000 0x3000) := by decide

/-! ### Witnesses: states and operands that meet the hypotheses of each obligation -/

theorem witness_DecodeOfEncode : Instr.wf Params.default (.setkey 255 0xffffffff) = true ∧
    Instr.wf Params.default (.encrypt 0xffffffff 0) = true ∧ Instr.wf Params.default (.decrypt 0 0xffffffff) = true ∧
    Instr.wf Params.default .keylen = true ∧ Instr.wf Params.default .blklen = true := by decide

theorem witness_EncodeOfDecode : decode ⟨0x100000ff, 5, 6⟩ = .ok (.setkey 255 5) ∧
    decode ⟨0x20000000, 5, 6⟩ = .ok (.encrypt 5 6) ∧ decode ⟨0x30000000, 5, 6⟩ = .ok (.decrypt 5 6) := by decide

theorem witness_DecodeFollowsOpcodeMap : decode ⟨0x40000000, 0, 0⟩ = .ok .keylen ∧
    decode ⟨0x40000001, 0, 0⟩ = .error .mustBeZero := by decide

/-- With a command in flight on another instance whose buffers touch its own without overlapping, and with one on the
same instance whose output block begins at the last octet of its input block. -/
theorem witness_StepRunsDecodedCommand :
    let s := { demoQ [.command 1 ⟨0x20000000, 0x2000, 0x3000⟩] with inFlight := [⟨0, .encrypt 0x2000 0x2010, false⟩] }
    let u := { s with inFlight := [⟨1, .encrypt 0x1000 0x200f, false⟩] }
    s.queue = .command 1 ⟨0x20000000, 0x2000, 0x3000⟩ :: [] ∧ 1 < s.engines.length ∧
      decode ⟨0x20000000, 0x2000, 0x3000⟩ = .ok (.encrypt 0x2000 0x3000) ∧
      s.MayJoin 1 (.encrypt 0x2000 0x3000) ∧ u.MayJoin 1 (.encrypt 0x2000 0x3000) ∧
      (∀ f ∈ s.inFlight, ¬ Instr.Clash (.encrypt 0x2000 0x3000) f.instr) ∧
      ∃ f ∈ u.inFlight, Instr.Clash (.encrypt 0x2000 0x3000) f.instr := by
  refine ⟨rfl, by decide, by decide, ?_, ?_, ?_, _, List.mem_singleton.2 rfl, 0x200f, .inr ⟨?_, .inl ?_⟩⟩
  · unfold State.MayJoin; decide
  · unfold State.MayJoin; decide
  · intro f hf
    rw [List.mem_singleton.1 hf, ← buffersClash_iff]
    decide
  · unfold Instr.WritesAt; decide
  · unfold Instr.ReadsAt; decide

theorem witness_StepRunsFetchedWord : State.reset.target < State.reset.engines.length ∧
    decodeTableWord 32 0x100000ff = some (.setkey 255 0) := by decide

theorem witness_IllegalWordAnswered :
    (demoQ [.command 1 ⟨0x60000000, 0, 0⟩]).queue = .command 1 ⟨0x60000000, 0, 0⟩ :: [] ∧
    (demoQ [.issue 0 ⟨0x18000010, 0, 0⟩]).queue = .issue 0 ⟨0x18000010, 0, 0⟩ :: [] ∧ 1 < demo.engines.length ∧
    decode ⟨0x60000000, 0, 0⟩ = .error .reservedOpcode ∧ decode ⟨0x18000010, 0, 0⟩ = .error .mustBeZero := by decide

theorem witness_IdleIssueAndComplete :
    let s := { demoQ [.issue 1 ⟨0x20000000, 0x2000, 0x3000⟩] with inFlight := [⟨1, .decrypt 0x3000 0x4000, false⟩] }
    let u := { demoQ [.complete 0] with inFlight := [⟨1, .decrypt 0x3000 0x4000, true⟩] }
    State.reset.queue = [] ∧ s.queue = .issue 1 ⟨0x20000000, 0x2000, 0x3000⟩ :: [] ∧ 1 < s.engines.length ∧
      decode ⟨0x20000000, 0x2000, 0x3000⟩ = .ok (.encrypt 0x2000 0x3000) ∧
      s.MayJoin 1 (.encrypt 0x2000 0x3000) ∧ u.queue = .complete 0 :: [] ∧
      u.inFlight[0]? = some ⟨1, .decrypt 0x3000 0x4000, true⟩ := by
  unfold State.MayJoin
  decide

/-- One instance busy and one not. -/
theorem witness_ResetEventBetweenCommands :
    let s := { demoQ [.resetInst 1] with inFlight := [⟨0, .keylen, false⟩] }
    s.queue = .resetInst 1 :: [] ∧ 1 < s.engines.length ∧ s.busy 1 = false ∧ s.busy 0 = true := by decide

/-- At the last address, where an octet stands, and at one that holds none. -/
theorem witness_HostStorePlacesOctet : (demoQ [.hostStore 0xffffffff 1]).queue = .hostStore 0xffffffff 1 :: [] ∧
    0xffffffff < 2 ^ demo.params.addrW ∧ (Memory.get? demo.mem 0xffffffff).isSome = true ∧
    Memory.get? demo.mem 0xfffffffe = none := by decide

/-- For each variant. -/
theorem witness_SetkeyCommitsExpandedKey : demo.engine? = some Engine.reset ∧ demo.disturbed = false ∧
    (16 : BitVec 8).toNat = Variant.aes128.keyLength ∧ (24 : BitVec 8).toNat = Variant.aes192.keyLength ∧
    (32 : BitVec 8).toNat = Variant.aes256.keyLength ∧
    demo.Holds 0x1000 (hexOcts 16 0x000102030405060708090a0b0c0d0e0f) ∧
    demo.Holds 0x1000 (hexOcts 24 0x000102030405060708090a0b0c0d0e0f1011121314151617) ∧ demo.Holds 0x1000 key256 := by
  refine ⟨rfl, rfl, rfl, rfl, rfl, ?_, ?_, ?_⟩ <;> exact ⟨by decide, by decide⟩

theorem witness_SetkeyRejectsOtherLengths : demo.engine? = some Engine.reset ∧
    ∀ klen ∈ ([0, 15, 17, 23, 25, 31, 33, 255] : List (BitVec 8)), klen ≠ 16 ∧ klen ≠ 24 ∧ klen ≠ 32 := by
  exact ⟨rfl, by decide⟩

/-- The first octet that does not exist, and the one past the top of the address space. -/
theorem witness_SetkeyBufferFault : demo.engine? = some Engine.reset ∧ 0 < Variant.aes128.keyLength ∧
    demo.readable (0x9000 + 0) = false ∧ demo.readable (0xfffffff1 + 15) = false ∧ 15 < Variant.aes128.keyLength := by
  exact ⟨rfl, by decide⟩

theorem witness_ForwardScheduleStartsWithKey : 4 * 3 + 3 < Variant.aes128.keyLength ∧
    4 * 5 + 3 < Variant.aes192.keyLength ∧ 4 * 7 + 3 < Variant.aes256.keyLength := by decide

theorem witness_ForwardScheduleRecurrence : Variant.aes128.nk ≤ 4 ∧ 43 < 4 * (Variant.aes128.nr + 1) ∧
    Variant.aes192.nk ≤ 6 ∧ 51 < 4 * (Variant.aes192.nr + 1) ∧ Variant.aes256.nk ≤ 12 ∧
    59 < 4 * (Variant.aes256.nr + 1) := by decide

/-- The two ends of the table, and the largest index the expansion reads. -/
theorem witness_RconPowersOfX : (∃ q r : RconIndex, r.val = 1 ∧ q.val = r.val + 1) ∧
    (∃ q r : RconIndex, q.val = 10 ∧ q.val = r.val + 1) ∧
    Variant.aes128.nk ≤ 40 ∧ 40 < 4 * (Variant.aes128.nr + 1) ∧ 40 % Variant.aes128.nk = 0 :=
  ⟨⟨⟨2, by decide⟩, ⟨1, by decide⟩, rfl, rfl⟩, ⟨⟨10, by decide⟩, ⟨9, by decide⟩, rfl, rfl⟩, by decide⟩

/-- Both ends of both clauses: indices 3, 4, 39 and 40 of AES-128. -/
theorem witness_InverseScheduleWords : 43 < 4 * (Variant.aes128.nr + 1) ∧ 4 * Variant.aes128.nr ≤ 40 ∧
    39 ≤ 4 * Variant.aes128.nr - 1 := by decide

/-- A keyed instance is keyed again: from reset, and from the key it has. -/
theorem witness_RekeyEqualsFreshConstruction : keyed.target < keyed.engines.length ∧
    (∃ t, exec (.setkey 24 0x1000) { keyed with engines := keyed.engines.set keyed.target Engine.reset } = .next t ∧
      keyed.Answers t .ok 0) ∧ ∃ u, exec (.setkey 24 0x1000) keyed = .next u ∧ keyed.Answers u .ok 0 :=
  ⟨by decide, answered (s := { keyed with engines := keyed.engines.set keyed.target Engine.reset }) (by decide),
    answered (by decide)⟩

/-- The keyed instance of the tests. -/
theorem keyed_engine : keyed.engine? = some { Engine.reset with key := some keyS1 } := rfl

theorem keyS1_expanded : keyS1.Expanded := ⟨_, rfl⟩

theorem demo_inv : demo.Inv where
  mem_wf := by decide
  mem_within := by decide
  engines := by
    intro e he
    rcases List.mem_cons.1 he with rfl | he
    · exact ⟨rfl, fun k hk => by cases hk⟩
    · obtain rfl := List.mem_singleton.1 he
      exact ⟨rfl, fun k hk => by cases hk; exact keyS1_expanded⟩
  inFlight := by decide
  setkeyAlone := List.Pairwise.nil

theorem keyed_inv : keyed.Inv := ⟨demo_inv.1, demo_inv.2, demo_inv.3, demo_inv.4, demo_inv.5⟩

/-- With input and output overlapping, and neither aligned; and for each command with the schedule it does not read
gone (R207, R222). -/
theorem witness_CipherCompletes :
    let noWinv := { keyS1 with Winv := [] }
    let noW := { keyS1 with W := [] }
    keyed.engine? = some { Engine.reset with key := some keyS1 } ∧
    (keyed.setEngine { Engine.reset with key := some noWinv }).engine? = some { Engine.reset with key := some noWinv } ∧
    keyed.disturbed = false ∧ keyed.Holds 0x2000 plain ∧ keyed.bufferWritable 0x2007 16 ∧
    4 * (noWinv.variant.nr + 1) ≤ noWinv.W.length ∧ 4 * (noW.variant.nr + 1) ≤ noW.Winv.length :=
  ⟨rfl, rfl, rfl, ⟨by decide, by decide⟩, by decide, by decide, by decide⟩

theorem witness_MachineRoundTrip : keyed.Inv ∧ keyed.engine? = some { Engine.reset with key := some keyS1 } ∧
    keyed.disturbed = false ∧ keyed.Holds 0x2000 plain ∧ keyed.bufferReadable 0x3000 16 ∧
    keyed.bufferWritable 0x3000 16 ∧ keyed.bufferWritable 0x4000 16 :=
  ⟨keyed_inv, rfl, rfl, ⟨by decide, by decide⟩, by decide, by decide, by decide⟩

/-- In place, and to another buffer. -/
theorem witness_AliasingSameOctets : (∃ t, exec (.encrypt 0x2000 0x2000) keyed = .next t ∧ keyed.Answers t .ok 0) ∧
    ∃ u, exec (.encrypt 0x2000 0x3000) keyed = .next u ∧ keyed.Answers u .ok 0 :=
  ⟨answered (by decide), answered (by decide)⟩

theorem witness_NotKeyedAnswered : demo.engine? = some Engine.reset ∧ Engine.reset.keyed = false := ⟨rfl, rfl⟩

/-- An input octet that may not be read, and the last output octet not one that exists. -/
theorem witness_CipherBufferFault : keyed.engine? = some { Engine.reset with key := some keyS1 } ∧
    keyed.readable (0x4000 + 0) = false ∧ keyed.writable (0x3001 + 15) = false := ⟨rfl, by decide, by decide⟩

/-- The first buffer that passes the top, for a key and for a block. -/
theorem witness_BufferPastTopFaults : demo.engine? = some Engine.reset ∧
    keyed.engine? = some { Engine.reset with key := some keyS1 } ∧ (32 : BitVec 8).toNat = Variant.aes256.keyLength ∧
    2 ^ demo.params.addrW < 0xffffffe1 + Variant.aes256.keyLength ∧ 2 ^ keyed.params.addrW < 0xfffffff1 + 16 :=
  ⟨rfl, rfl, rfl, by decide, by decide⟩

/-- An instance with a key and one without. -/
theorem witness_KeylenAnswers : keyed.engine? = some { Engine.reset with key := some keyS1 } ∧
    keyS1.variant = .aes128 ∧ demo.engine? = some Engine.reset := ⟨rfl, rfl, rfl⟩

theorem witness_BlklenAnswers : demo.engine? = some Engine.reset := rfl

theorem witness_KeylenReportsLastKey : ∃ t, exec (.setkey 24 0x1000) demo = .next t ∧ demo.Answers t .ok 0 :=
  answered (by decide)

/-- A block encrypted, and a query. -/
theorem witness_ConstCommandsKeepKeys : Instr.isSetkey (.encrypt 0x2000 0x3000) = false ∧
    (∃ t, exec (.encrypt 0x2000 0x3000) keyed = .next t ∧ keyed.Answers t .ok 0) ∧
    ∃ u, exec .keylen keyed = .next u ∧ keyed.Answers u .ok 16 := ⟨rfl, answered (by decide), answered (by decide)⟩

/-- A SETKEY that commits and one that fails. -/
theorem witness_SetkeyFrame : (∃ t, exec (.setkey 24 0x1000) keyed = .next t ∧ keyed.Answers t .ok 0) ∧
    ∃ u, exec (.setkey 25 0x1000) keyed = .next u ∧ keyed.Answers u .invalidKeyLength 0 :=
  ⟨answered (by decide), answered (by decide)⟩

/-- The addresses next to the output block, on both sides. -/
theorem witness_OnlyOutputBlockWritten : (∃ t, exec (.encrypt 0x2000 0x3000) keyed = .next t ∧ keyed.Answers t .ok 0) ∧
    ¬ Instr.WritesAt (.encrypt 0x2000 0x3000) 0x2fff ∧ ¬ Instr.WritesAt (.encrypt 0x2000 0x3000) 0x3010 :=
  ⟨answered (by decide), by unfold Instr.WritesAt; decide, by unfold Instr.WritesAt; decide⟩

/-- A SETKEY and an ENCRYPT that fail. -/
theorem witness_FaultWritesNothing :
    (∃ t, exec (.setkey 25 0x1000) keyed = .next t ∧ keyed.Answers t .invalidKeyLength 0) ∧
    ∃ u, exec (.encrypt 0x9000 0x3000) keyed = .next u ∧ keyed.Answers u .bufferFault 0 :=
  ⟨answered (by decide), answered (by decide)⟩

theorem witness_OneResponseOfItsOwnKind : ∃ t, exec .blklen demo = .next t ∧ demo.Answers t .ok 16 :=
  answered (by decide)

/-- A step that runs a command on a keyed instance. -/
theorem witness_StepKeepsInvariant : (demoQ [.command 1 ⟨0x20000000, 0x2000, 0x3000⟩]).Inv ∧
    ∃ t, step (demoQ [.command 1 ⟨0x20000000, 0x2000, 0x3000⟩]) = .next t :=
  ⟨⟨demo_inv.1, demo_inv.2, demo_inv.3, demo_inv.4, demo_inv.5⟩, stepped (by decide)⟩

theorem witness_LegalHostNeverStops : (demoQ [.resetInst 1]).Inv ∧ (demoQ [.resetInst 1]).HostLegal := by
  refine ⟨⟨demo_inv.1, demo_inv.2, demo_inv.3, demo_inv.4, demo_inv.5⟩, ?_⟩
  intro ev rest h
  cases h
  exact ⟨by decide, by decide⟩

theorem witness_CommandsComplete : (∀ e ∈ keyed.engines, e.Inv) ∧ keyed.target < keyed.engines.length :=
  ⟨keyed_inv.3, by decide⟩

theorem witness_InstancesIndependent :
    let s := demoQ [.command 0 ⟨0x10000010, 0x1000, 0⟩]
    (∃ t, step s = .next t) ∧ HostEvent.subject s (.command 0 ⟨0x10000010, 0x1000, 0⟩) ≠ some 1 :=
  ⟨stepped (by decide), by decide⟩

theorem witness_RunKeepsLaunchParameters :
    ∃ t, step (demoQ [.command 0 ⟨0x50000000, 0, 0⟩]) = .next t ∧ Run (demoQ [.command 0 ⟨0x50000000, 0, 0⟩]) t := by
  obtain ⟨t, ht⟩ := stepped (s := demoQ [.command 0 ⟨0x50000000, 0, 0⟩]) (by decide)
  exact ⟨t, ht, .snoc (.refl _) ht⟩

/-- A SETKEY of a bad length, and an ENCRYPT on a keyed instance, with accessible buffers. -/
theorem witness_OnlyInvalidKeyLength :
    (∃ t, exec (.setkey 15 0x1000) demo = .next t ∧ demo.Answers t .invalidKeyLength 0) ∧
    (∀ a, Instr.ReadsAt (.setkey 15 0x1000) a → demo.readable a = true) ∧
    (∀ a, Instr.ReadsAt (.encrypt 0x2000 0x3000) a → keyed.readable a = true) ∧
    ∀ a, Instr.WritesAt (.encrypt 0x2000 0x3000) a → keyed.writable a = true := by
  refine ⟨answered (by decide), fun a h => absurd h.1 (by decide), fun a h => ?_, fun a h => ?_⟩ <;>
    obtain ⟨j, rfl⟩ := Nat.exists_eq_add_of_le h.1
  · exact (by decide : keyed.bufferReadable 0x2000 16) ⟨j, by have := h.2; omega⟩
  · exact (by decide : keyed.bufferWritable 0x3000 16) ⟨j, by have := h.2; omega⟩

/-- A query issued while a SETKEY is in flight, with a second query beside it. -/
theorem witness_ConcurrentRekeyUnkeys :
    let s := { demoQ [.issue 1 ⟨0x40000000, 0, 0⟩] with
      inFlight := [⟨1, .setkey 16 0x1000, false⟩, ⟨1, .keylen, false⟩] }
    s.queue = .issue 1 ⟨0x40000000, 0, 0⟩ :: [] ∧
      s.engines[1]? = some { Engine.reset with key := some keyS1 } ∧ decode ⟨0x40000000, 0, 0⟩ = .ok .keylen ∧
      ∃ f ∈ s.inFlight, f.inst = 1 ∧ (Instr.isSetkey .keylen = true ∨ Instr.isSetkey f.instr = true) :=
  ⟨rfl, rfl, by decide, by decide⟩

theorem witness_AtomicNeverConcurrentRekey : demo.inFlight = [] ∧
    ∃ t, step (demoQ [.command 1 ⟨0x10000010, 0x1000, 0⟩]) = .next t := ⟨rfl, stepped (by decide)⟩

/-- Buffers that touch without overlapping, on one instance. -/
theorem witness_ConcurrentCiphersCommute : demo.Inv ∧ 1 < demo.engines.length ∧
    Instr.isSetkey (.encrypt 0x2000 0x3000) = false ∧ Instr.isSetkey (.decrypt 0x2008 0x2ff0) = false ∧
    ¬ Instr.Clash (.encrypt 0x2000 0x3000) (.decrypt 0x2008 0x2ff0) :=
  ⟨demo_inv, by decide, rfl, rfl, by rw [← buffersClash_iff]; decide⟩

theorem witness_DisturbedOctetsFree :
    let s := demo.select 1 true
    s.engine? = some { Engine.reset with key := some keyS1 } ∧ s.disturbed = true ∧ s.bufferReadable 0x2000 16 ∧
      s.bufferWritable 0x3000 16 ∧ 4 * (keyS1.variant.nr + 1) ≤ keyS1.W.length ∧
      4 * (keyS1.variant.nr + 1) ≤ keyS1.Winv.length ∧ (32 : BitVec 8).toNat = Variant.aes256.keyLength ∧
      s.bufferReadable 0x1000 Variant.aes256.keyLength :=
  ⟨rfl, rfl, by decide, by decide, by decide, by decide, rfl, by decide⟩

/-- An octet before the column, one after it. -/
theorem witness_StoreWordInvertsLoadWord : (3 : Fin 16).val < 4 * (1 : Fin 4).val ∧
    4 * (1 : Fin 4).val + 4 ≤ (8 : Fin 16).val := by decide

end Sys2Proof.Tests
end

/-! The scope of the block: a step is `exec` of the decoded command, the schedules have the lengths their
variant fixes, and no run changes what was fixed at launch. -/

namespace Sys2Proof.Machine

/-! ### What every command leaves of the state -/

/-- The four ways in which a command leaves the state: answered only, a failed SETKEY, a committed key, a committed
block. -/
theorem exec_next_shape {i : Instr} {s t : State} (h : exec i s = .next t) :
    (∃ st v, t = s.respond st v) ∨ (∃ e st, t = s.failSetkey e st) ∨ (∃ e k, t = s.commitKey e k) ∨
      ∃ e a out, t = s.commitBlock e a out := by
  obtain ⟨e, -, ⟨-, -, -, rfl⟩ | ⟨a, b, k, -, -, -, rfl⟩ |
    ⟨klen, a, -, ⟨-, rfl⟩ | ⟨v, -, ⟨-, rfl⟩ | ⟨key, -, rfl⟩⟩⟩ |
    ⟨a, b, k, block, -, -, -, ⟨-, -, rfl⟩ | ⟨-, -, rfl⟩⟩ | ⟨k, -, -, rfl⟩ | ⟨-, rfl⟩⟩ := exec_next_cases h
  · exact .inl ⟨_, _, rfl⟩
  · exact .inl ⟨_, _, rfl⟩
  · exact .inr (.inl ⟨e, _, rfl⟩)
  · exact .inr (.inl ⟨e, _, rfl⟩)
  · exact .inr (.inr (.inl ⟨e, _, rfl⟩))
  · exact .inr (.inr (.inr ⟨e, b, _, rfl⟩))
  · exact .inr (.inr (.inr ⟨e, b, _, rfl⟩))
  · exact .inl ⟨_, _, rfl⟩
  · exact .inl ⟨_, _, rfl⟩

/-- A command changes nothing but engines, memory, the launch record and the counter of free values. -/
theorem exec_sameSurroundings {i : Instr} {s t : State} (h : exec i s = .next t) : s.SameSurroundings t := by
  obtain ⟨st, v, rfl⟩ | ⟨e, st, rfl⟩ | ⟨e, k, rfl⟩ | ⟨e, a, out, rfl⟩ := exec_next_shape h
  all_goals exact ⟨rfl, rfl, rfl, rfl, rfl, rfl⟩

/-- A command leaves every instance but its own as it was (R48). -/
theorem exec_otherEnginesSame {i : Instr} {s t : State} (h : exec i s = .next t) : s.OtherEnginesSame t := by
  obtain ⟨st, v, rfl⟩ | ⟨e, st, rfl⟩ | ⟨e, k, rfl⟩ | ⟨e, a, out, rfl⟩ := exec_next_shape h
  · exact State.otherEnginesSame_of_eq rfl
  · exact State.otherEnginesSame_set rfl
  · exact State.otherEnginesSame_set rfl
  · exact State.otherEnginesSame_set rfl

/-- A command ends with exactly one response, of the instance it ran on (R95). -/
theorem exec_answers {i : Instr} {s t : State} (h : exec i s = .next t) : ∃ st v, s.Answers t st v := by
  obtain ⟨st, v, rfl⟩ | ⟨e, st, rfl⟩ | ⟨e, k, rfl⟩ | ⟨e, a, out, rfl⟩ := exec_next_shape h
  · exact ⟨st, v, rfl⟩
  · exact ⟨st, 0, rfl⟩
  · exact ⟨.ok, 0, rfl⟩
  · exact ⟨.ok, 0, rfl⟩

/-! ### What no step changes -/

/-- What is fixed at launch stands in `t` as in `s`, and the launch record of `s` begins that of `t` (R13, R39). -/
structure State.KeepsLaunch (s t : State) : Prop where
  params : t.params = s.params
  prot : t.prot = s.prot
  instances : t.engines.length = s.engines.length
  responses : s.responses <+: t.responses

theorem State.KeepsLaunch.refl (s : State) : s.KeepsLaunch s := ⟨rfl, rfl, rfl, List.prefix_refl _⟩

theorem State.KeepsLaunch.trans {s t u : State} (h : s.KeepsLaunch t) (h' : t.KeepsLaunch u) : s.KeepsLaunch u :=
  ⟨h'.params.trans h.params, h'.prot.trans h.prot, h'.instances.trans h.instances, h.responses.trans h'.responses⟩

/-- The queue, memory, the commands in flight and the port play no part in `KeepsLaunch`: it may start from any state
that agrees in the rest. -/
theorem State.KeepsLaunch.congr_left {s s' t : State} (h : s'.KeepsLaunch t) (params : s'.params = s.params := by rfl)
    (prot : s'.prot = s.prot := by rfl) (engines : s'.engines = s.engines := by rfl)
    (responses : s'.responses = s.responses := by rfl) : s.KeepsLaunch t :=
  ⟨h.params.trans params, h.prot.trans prot, h.instances.trans (congrArg List.length engines),
    responses ▸ h.responses⟩

theorem State.raiseStatus_keepsLaunch (s : State) (st : Status) : s.KeepsLaunch (s.raiseStatus st) :=
  ⟨rfl, rfl, rfl, List.prefix_append _ _⟩

theorem exec_keepsLaunch {i : Instr} {s t : State} (h : exec i s = .next t) : s.KeepsLaunch t := by
  have surroundings := exec_sameSurroundings h
  obtain ⟨instances, -⟩ := exec_otherEnginesSame h
  obtain ⟨st, v, answers⟩ := exec_answers h
  exact ⟨surroundings.params, surroundings.prot, instances, answers ▸ List.prefix_append _ _⟩

/-- `ConcurrentRekey` unkeys an instance in its place and only adds responses (R255). -/
theorem State.abortRekey_keepsLaunch (s : State) (inst : Nat) : s.KeepsLaunch (s.abortRekey inst) :=
  ⟨rfl, rfl, by simp, by rw [State.abortRekey_responses]; exact List.prefix_append _ _⟩

theorem runCommand_keepsLaunch {inst : Nat} {c : Command} {s t : State} (h : runCommand inst c s = .next t) :
    s.KeepsLaunch t := by
  obtain ⟨-, h'⟩ | ⟨-, ⟨err, -, h'⟩ | ⟨i, -, ⟨-, h'⟩ | ⟨-, h'⟩⟩⟩ := runCommand_cases inst c s <;> rw [h'] at h
  · cases h
  · cases h
    exact ((s.select inst false).raiseStatus_keepsLaunch .illegalCommand).congr_left
  · cases h
    exact s.abortRekey_keepsLaunch inst
  · exact (exec_keepsLaunch h).congr_left

theorem runIssue_keepsLaunch {inst : Nat} {c : Command} {s t : State} (h : runIssue inst c s = .next t) :
    s.KeepsLaunch t := by
  obtain ⟨-, h'⟩ | ⟨-, ⟨err, -, h'⟩ | ⟨i, -, ⟨-, h'⟩ | ⟨-, h'⟩⟩⟩ := runIssue_cases inst c s <;> rw [h'] at h <;> cases h
  · exact ((s.select inst false).raiseStatus_keepsLaunch .illegalCommand).congr_left
  · exact s.abortRekey_keepsLaunch inst
  · exact (State.KeepsLaunch.refl _).congr_left

theorem runComplete_keepsLaunch {k : Nat} {s t : State} (h : runComplete k s = .next t) : s.KeepsLaunch t := by
  obtain ⟨-, h'⟩ | ⟨f, -, h'⟩ := runComplete_cases k s <;> rw [h'] at h
  · cases h
  · exact (exec_keepsLaunch h).congr_left

theorem runReset_keepsLaunch {inst : Nat} {s t : State} (h : runReset inst s = .next t) : s.KeepsLaunch t := by
  obtain ⟨-, h'⟩ | ⟨-, ⟨-, h'⟩ | ⟨-, h'⟩⟩ := runReset_cases inst s <;> rw [h'] at h <;> cases h
  exact ⟨rfl, rfl, by simp, List.prefix_refl _⟩

theorem runHostStore_keepsLaunch {a : Nat} {v : Byte} {s t : State} (h : runHostStore a v s = .next t) :
    s.KeepsLaunch t := by
  obtain ⟨-, h'⟩ | ⟨-, h'⟩ := runHostStore_cases a v s <;> rw [h'] at h <;> cases h
  exact (State.KeepsLaunch.refl _).congr_left

theorem step_keepsLaunch {s t : State} (h : step s = .next t) : s.KeepsLaunch t := by
  obtain ⟨-, h'⟩ | ⟨inst, c, q, -, h'⟩ | ⟨inst, c, q, -, h'⟩ | ⟨k, q, -, h'⟩ | ⟨inst, q, -, h'⟩ | ⟨a, v, q, -, h'⟩ :=
    step_cases s <;> rw [h'] at h
  · cases h
    exact .refl s
  · exact (runCommand_keepsLaunch h).congr_left
  · exact (runIssue_keepsLaunch h).congr_left
  · exact (runComplete_keepsLaunch h).congr_left
  · exact (runReset_keepsLaunch h).congr_left
  · exact (runHostStore_keepsLaunch h).congr_left

theorem run_keepsLaunch {s t : State} (h : Run s t) : s.KeepsLaunch t := by
  induction h with
  | refl => exact .refl _
  | snoc _ hstep ih => exact ih.trans (step_keepsLaunch hstep)

/-- Settles O47: every step keeps what is fixed at launch, so by induction every run does. -/
theorem runKeepsLaunchParameters : Obligations.RunKeepsLaunchParameters := by
  intro s t h
  obtain ⟨params, prot, instances, responses⟩ := run_keepsLaunch h
  exact ⟨params, prot, instances, responses⟩

/-! ### A step is `exec` of the decoded command -/

/-- A step takes the first action of the queue (R40). -/
theorem step_of_queue_cons {s : State} {ev : HostEvent} {rest : List HostEvent} (h : s.queue = ev :: rest) :
    step s = runEvent ev { s with queue := rest } := by
  unfold step runNext
  rw [h]

/-- A command that may join those in flight runs at once (R80, R81). -/
theorem runCommand_of_mayJoin {inst : Nat} {c : Command} {s : State} {i : Instr} (hinst : inst < s.engines.length)
    (hdec : decode c = .ok i) (hjoin : s.MayJoin inst i) :
    runCommand inst c s = exec i ({ s with inFlight := disturbBy i s.inFlight }.select inst (s.bufferClash i)) := by
  simp [runCommand, State.hasInstance, hinst, hdec, State.rekeyClash_of_mayJoin hjoin]

/-- With no clash octet by octet, no buffers clash. -/
theorem State.bufferClash_eq_false {s : State} {i : Instr} (h : ∀ f ∈ s.inFlight, ¬ Instr.Clash i f.instr) :
    s.bufferClash i = false := by
  rw [← Bool.not_eq_true, State.bufferClash_iff]
  exact fun ⟨f, hf, hclash⟩ => h f hf hclash

/-- Settles O7: the marks are those of `disturbBy`, and the command is disturbed as `State.bufferClash` says. -/
theorem stepRunsDecodedCommand : Obligations.StepRunsDecodedCommand := by
  intro s inst c i rest hqueue hinst hdec hjoin
  refine ⟨disturbBy i s.inFlight, s.bufferClash i, disturbBy_marked i s.inFlight, State.bufferClash_iff,
    fun h => ⟨disturbBy_of_no_clash h, State.bufferClash_eq_false h⟩, ?_⟩
  calc step s = runCommand inst c { s with queue := rest } := step_of_queue_cons hqueue
    _ = _ := runCommand_of_mayJoin hinst hdec hjoin

/-! ### The lengths of the schedules -/

@[simp] theorem length_expandKey_W (v : Variant) (key : Octets v.keyLength) :
    (expandKey v key).W.length = 4 * (v.nr + 1) :=
  length_forwardSchedule v key

@[simp] theorem length_expandKey_Winv (v : Variant) (key : Octets v.keyLength) :
    (expandKey v key).Winv.length = 4 * (v.nr + 1) :=
  (length_inverseSchedule v _).trans (length_forwardSchedule v key)

/-- Settles O20: both schedules are as long as the forward one, and the variant fixes `Nk` and `Nr` (R11). -/
theorem scheduleLengths : Obligations.ScheduleLengths := by
  intro v key
  refine ⟨length_expandKey_W v key, length_expandKey_Winv v key, ?_, ?_, ?_⟩ <;> rintro rfl <;> exact ⟨rfl, rfl⟩

end Sys2Proof.Machine

/-! What the state family adds: the round trip of a block on the machine, the invariant along every step, the frames of
the commands, and the steps of the port. -/

namespace Sys2Proof.Machine

/-! ### Decryption undoes encryption -/

/-- In the first and the last round the inverse schedule reads as the forward one (R186). -/
theorem schedWord_inverseSchedule_outer {v : Variant} {i : Nat} (W : List Word) (h : i < 4 ∨ 4 * v.nr ≤ i) :
    schedWord (inverseSchedule v W) i = schedWord W i := by
  have hnot : ¬ (4 ≤ i ∧ i < 4 * v.nr) := by omega
  refine schedWord_congr ?_
  simp only [getElem?_inverseSchedule, if_neg hnot, Option.map_id']

/-- In the rounds between, the inverse schedule reads as FastInvMixColumn of the forward one (R186). -/
theorem schedWord_inverseSchedule_inner {v : Variant} {W : List Word} {i : Nat} (h : 4 ≤ i ∧ i < 4 * v.nr)
    (hW : i < W.length) : schedWord (inverseSchedule v W) i = fastInvMixColumn (schedWord W i) := by
  have hi : W[i]? = some W[i] := List.getElem?_eq_getElem hW
  rw [schedWord_eq_of_getElem? hi]
  refine schedWord_eq_of_getElem? ?_
  rw [getElem?_inverseSchedule, hi, Option.map_some, if_pos h]

/-- The state after SubBytes and ShiftRows of every column: where the two pipelines meet (R223). -/
def subBytesShiftRowsState (s : Columns) : Columns := Columns.ofFn fun c => subBytesShiftRows c s

/-- Round 0 of DECRYPT takes away the key of the last round of ENCRYPT (R205, R218). -/
theorem addRoundKeys_encFinal (v : Variant) (W : List Word) (s : Columns) :
    addRoundKeys (inverseSchedule v W) v.nr (encFinal W v.nr s) = subBytesShiftRowsState s := by
  refine Columns.ext_get fun c => ?_
  simp only [addRoundKeys, addRoundKey, encFinal, subBytesShiftRowsState, Columns.ofFn_get]
  rw [schedWord_inverseSchedule_outer W (.inr (Nat.le_add_right _ _)), BitVec.xor_assoc, BitVec.xor_self,
    BitVec.xor_zero]

/-- A middle round of DECRYPT undoes the middle round of ENCRYPT with the same number: FastInvMixColumn, being linear,
takes the product with the MixColumns matrix and the round key away together (R204, R219). -/
theorem decRound_encRound {v : Variant} {W : List Word} (hW : W.length = v.words) {r : Nat} (hpos : 0 < r)
    (hr : r < v.nr) (s : Columns) :
    decRound (inverseSchedule v W) r (subBytesShiftRowsState (encRound W r s)) = subBytesShiftRowsState s := by
  refine Columns.ext_get fun c => ?_
  have hlen : 4 * r + c.val < W.length := by rw [hW, Variant.words]; omega
  have hround : 4 ≤ 4 * r + c.val ∧ 4 * r + c.val < 4 * v.nr := by omega
  calc (decRound (inverseSchedule v W) r (subBytesShiftRowsState (encRound W r s))).get c
      = fastInvMixColumn ((encRound W r s).get c) ^^^ fastInvMixColumn (schedWord W (4 * r + c)) := by
        simp only [decRound, subBytesShiftRowsState, Columns.ofFn_get, invMixColShiftRow_subBytesShiftRows,
          schedWord_inverseSchedule_inner hround hlen]
    _ = fastInvMixColumn (mixColShiftRow c s) := by
        rw [← fastInvMixColumn_xor, encRound, Columns.ofFn_get, BitVec.xor_assoc, BitVec.xor_self, BitVec.xor_zero]
    _ = (subBytesShiftRowsState s).get c := by
        rw [fastInvMixColumn_mixColShiftRow, subBytesShiftRowsState, Columns.ofFn_get]

/-- The middle rounds of DECRYPT, in descending order, undo those of ENCRYPT. -/
theorem decRounds_encRounds {v : Variant} {W : List Word} (hW : W.length = v.words) {n : Nat} (hn : n < v.nr)
    (s : Columns) :
    decRounds (inverseSchedule v W) n (subBytesShiftRowsState (encRounds W n s)) = subBytesShiftRowsState s := by
  induction n with
  | zero => rfl
  | succ n ih => rw [decRounds, encRounds, decRound_encRound hW (Nat.succ_pos n) hn, ih (Nat.lt_of_succ_lt hn)]

/-- The final round of DECRYPT undoes round 0 of ENCRYPT (R203, R220). -/
theorem decFinal_addRoundKeys (v : Variant) (W : List Word) (s : Columns) :
    decFinal (inverseSchedule v W) (subBytesShiftRowsState (addRoundKeys W 0 s)) = s := by
  refine Columns.ext_get fun c => ?_
  simp only [decFinal, subBytesShiftRowsState, Columns.ofFn_get, invSubBytesShiftRows_subBytesShiftRows, addRoundKeys,
    addRoundKey]
  rw [schedWord_inverseSchedule_outer W (.inl c.isLt), Nat.mul_zero, Nat.zero_add, BitVec.xor_assoc, BitVec.xor_self,
    BitVec.xor_zero]

/-- Decryption undoes encryption on columns, round by round. -/
theorem decryptColumns_encryptColumns (v : Variant) (key : Octets v.keyLength) (s : Columns) :
    decryptColumns (expandKey v key) (encryptColumns (expandKey v key) s) = s := by
  have hn : v.nr - 1 < v.nr := by cases v <;> decide
  simp only [decryptColumns, encryptColumns, expandKey, addRoundKeys_encFinal,
    decRounds_encRounds (length_forwardSchedule v key) hn, decFinal_addRoundKeys]

/-- Decryption undoes encryption on blocks (R209, R46 d). -/
theorem decryptBlock_encryptBlock (v : Variant) (key : Octets v.keyLength) (block : Octets 16) :
    decryptBlock (expandKey v key) (encryptBlock (expandKey v key) block) = block := by
  rw [decryptBlock, encryptBlock, loadColumns_storeColumns, decryptColumns_encryptColumns, storeColumns_loadColumns]

/-! ### A committed block on the machine -/

/-- A cipher whose checks all hold commits its block (R200, R215). -/
theorem runCipher_of_checks {sched : KeyState → List Word} {cipher : KeyState → Octets 16 → Octets 16}
    {inAddr outAddr : Nat} {s : State} {e : Engine} {k : KeyState} {block : Octets 16} (he : s.engine? = some e)
    (hk : e.key = some k) (hin : s.readBuffer inAddr 16 = some block) (hout : s.bufferWritable outAddr 16)
    (hwords : hasWords k.variant (sched k) = true) :
    runCipher sched cipher inAddr outAddr s = .next (s.commitBlock e outAddr (cipher k block)) := by
  simp only [runCipher, he, hk, hin, if_pos hout, if_pos hwords]

/-- A write takes no octet away. -/
theorem Memory.isSome_get?_write {n : Nat} {m : Memory} {b : Nat} (a : Nat) (v : Octets n)
    (h : (Memory.get? m b).isSome = true) : (Memory.get? (m.write a v) b).isSome = true := by
  by_cases hin : a ≤ b ∧ b < a + n
  · obtain ⟨j, rfl⟩ := Nat.exists_eq_add_of_le hin.1
    rw [Memory.get?_write_inside m a v ⟨j, by omega⟩]
    rfl
  · rwa [Memory.get?_write_outside m a b v (by omega)]

section commitBlock
variable {s : State} {a n : Nat} (e : Engine) (outAddr : Nat) (out : Octets 16)

/-- An octet that is there before a block is committed is there after it. -/
theorem State.present_commitBlock (h : s.present a = true) : (s.commitBlock e outAddr out).present a = true := by
  simp only [State.present, Bool.and_eq_true, State.commitBlock_params, State.commitBlock_mem] at h ⊢
  exact ⟨h.1, Memory.isSome_get?_write outAddr out h.2⟩

/-- The host's restrictions stand when a block is committed. -/
@[simp] theorem State.restricts_commitBlock (acc : Access) :
    (s.commitBlock e outAddr out).restricts acc a = s.restricts acc a := rfl

/-- A buffer that may be read before a block is committed may be read after it. -/
theorem State.bufferReadable_commitBlock (h : s.bufferReadable a n) :
    (s.commitBlock e outAddr out).bufferReadable a n := fun j => by
  have hj := h j
  simp only [State.readable, Bool.and_eq_true, State.restricts_commitBlock] at hj ⊢
  exact ⟨State.present_commitBlock e outAddr out hj.1, hj.2⟩

/-- A buffer that may be written before a block is committed may be written after it. -/
theorem State.bufferWritable_commitBlock (h : s.bufferWritable a n) :
    (s.commitBlock e outAddr out).bufferWritable a n := fun j => by
  have hj := h j
  simp only [State.writable, Bool.and_eq_true, State.restricts_commitBlock] at hj ⊢
  exact ⟨State.present_commitBlock e outAddr out hj.1, hj.2⟩

/-- The committed octets stand at the output address (R206, R221). -/
theorem State.get?_commitBlock_mem (j : Fin 16) :
    Memory.get? (s.commitBlock e outAddr out).mem (outAddr + j) = some (out j) := by
  rw [State.commitBlock_mem, Memory.get?_write_inside]

/-- A committed block that may be read is what the next command reads there. -/
theorem State.readBuffer_commitBlock (hd : s.disturbed = false) (h : s.bufferReadable outAddr 16) :
    (s.commitBlock e outAddr out).readBuffer outAddr 16 = some out :=
  State.readBuffer_of_octets (State.bufferReadable_commitBlock e outAddr out h) hd
    (State.get?_commitBlock_mem e outAddr out)

end commitBlock

/-- The invariant holds of the selected instance. -/
theorem State.Inv.engine {s : State} {e : Engine} (h : s.Inv) (he : s.engine? = some e) : e.Inv :=
  h.engines e (List.mem_of_getElem? he)

/-- A keyed instance that meets the invariant holds the expansion of some key (R46). -/
theorem Engine.Inv.exists_expandKey {e : Engine} (h : e.Inv) (hkeyed : e.keyed = true) :
    ∃ v key, e.key = some (expandKey v key) := by
  obtain ⟨k, hk⟩ := Option.isSome_iff_exists.1 hkeyed
  obtain ⟨key, hexp⟩ := h.key k hk
  exact ⟨k.variant, key, hk.trans (congrArg some hexp)⟩

/-- Settles O28: DECRYPT reads at `b` the block that ENCRYPT committed there, with the same expanded key, and
`decryptBlock_encryptBlock` gives the first block back. All input is read before any output is written, so no overlap
plays a part. -/
theorem machineRoundTrip : Obligations.MachineRoundTrip := by
  intro s e a b c block hinv he hkeyed hd ⟨hreadA, hvalA⟩ hreadB hwriteB hwriteC
  obtain ⟨v, key, hk⟩ := (hinv.engine he).exists_expandKey hkeyed
  have hin : s.readBuffer a 16 = some block := State.readBuffer_of_octets hreadA hd hvalA
  let t := s.commitBlock e b (encryptBlock (expandKey v key) block)
  let e' := e.releaseCipher s.freeIdx
  have het : t.engine? = some e' := State.engine?_set he (State.commitBlock_engines ..) rfl
  have hint : t.readBuffer b 16 = some (encryptBlock (expandKey v key) block) :=
    State.readBuffer_commitBlock e b _ hd hreadB
  refine ⟨t, t.commitBlock e' c block, runCipher_of_checks he hk hin hwriteB (hasWords_expandKey_W v key), ?_,
    State.get?_commitBlock_mem e' c block⟩
  calc exec (.decrypt b c) t
      = .next (t.commitBlock e' c (decryptBlock (expandKey v key) (encryptBlock (expandKey v key) block))) :=
        runCipher_of_checks het hk hint (State.bufferWritable_commitBlock e b _ hwriteC)
          (hasWords_expandKey_Winv v key)
    _ = .next (t.commitBlock e' c block) := by rw [decryptBlock_encryptBlock]

/-! ### What each kind of command writes -/

/-- What a command writes, by its kind: the answer alone, a SETKEY's treatment of its own instance, or the output block
of ENCRYPT and DECRYPT, which may be written (R49, R72, R78). -/
theorem exec_next_effect {i : Instr} {s t : State} (h : exec i s = .next t) :
    ∃ e, s.engine? = some e ∧
      ((Instr.isSetkey i = false ∧ ∃ st v, t = s.respond st v) ∨
       (Instr.isSetkey i = true ∧
          ((∃ st, t = s.failSetkey e st) ∨ ∃ v key, t = s.commitKey e (expandKey v key))) ∨
       (∃ a b out, (i = .encrypt a b ∨ i = .decrypt a b) ∧ s.bufferWritable b 16 ∧ t = s.commitBlock e b out)) := by
  obtain ⟨e, he, ⟨-, hi, -, rfl⟩ | ⟨a, b, k, hi, -, -, rfl⟩ |
    ⟨klen, a, rfl, ⟨-, rfl⟩ | ⟨v, -, ⟨-, rfl⟩ | ⟨key, -, rfl⟩⟩⟩ |
    ⟨a, b, k, block, -, -, hw, ⟨hi, -, rfl⟩ | ⟨hi, -, rfl⟩⟩ | ⟨k, rfl, -, rfl⟩ | ⟨rfl, rfl⟩⟩ := exec_next_cases h
  · exact ⟨e, he, .inl ⟨hi, _, _, rfl⟩⟩
  · exact ⟨e, he, .inl ⟨by rcases hi with rfl | rfl <;> rfl, _, _, rfl⟩⟩
  · exact ⟨e, he, .inr (.inl ⟨rfl, .inl ⟨_, rfl⟩⟩)⟩
  · exact ⟨e, he, .inr (.inl ⟨rfl, .inl ⟨_, rfl⟩⟩)⟩
  · exact ⟨e, he, .inr (.inl ⟨rfl, .inr ⟨v, key, rfl⟩⟩)⟩
  · exact ⟨e, he, .inr (.inr ⟨a, b, _, .inl hi, hw, rfl⟩)⟩
  · exact ⟨e, he, .inr (.inr ⟨a, b, _, .inr hi, hw, rfl⟩)⟩
  · exact ⟨e, he, .inl ⟨rfl, _, _, rfl⟩⟩
  · exact ⟨e, he, .inl ⟨rfl, _, _, rfl⟩⟩

/-! ### The invariant of an instance -/

theorem KeyState.expanded_expandKey (v : Variant) (key : Octets v.keyLength) : (expandKey v key).Expanded :=
  ⟨key, rfl⟩

/-- An instance keeps the invariant when it keeps its backend and its key, or loses the key. -/
theorem Engine.Inv.of_key {e e' : Engine} (h : e.Inv) (hb : e'.backend = e.backend)
    (hk : ∀ k, e'.key = some k → e.key = some k) : e'.Inv :=
  ⟨hb.trans h.backend, fun k hk' => h.key k (hk k hk')⟩

theorem Engine.Inv.afterFailedSetkey {e : Engine} (h : e.Inv) (p : FailPolicy) : (e.afterFailedSetkey p).Inv :=
  h.of_key (e.afterFailedSetkey_backend p) fun _ => e.afterFailedSetkey_key

theorem Engine.Inv.releaseCipher {e : Engine} (h : e.Inv) (n : Nat) : (e.releaseCipher n).Inv :=
  h.of_key rfl fun _ => id

theorem Engine.Inv.releaseTemp {e : Engine} (h : e.Inv) (n : Nat) : (e.releaseTemp n).Inv := h.of_key rfl fun _ => id

theorem Engine.Inv.unkey {e : Engine} (h : e.Inv) : e.unkey.Inv := h.of_key rfl fun _ hk => by cases hk

/-- A committed key is an expanded one (R187). -/
theorem Engine.Inv.commitKey {e : Engine} (h : e.Inv) (v : Variant) (key : Octets v.keyLength) :
    Engine.Inv { e with key := some (expandKey v key) } :=
  ⟨h.backend, fun _ hk => Option.some.inj hk ▸ KeyState.expanded_expandKey v key⟩

theorem Engine.inv_reset : Engine.reset.Inv := ⟨rfl, fun _ hk => by cases hk⟩

theorem Engine.inv_resetAt (n : Nat) : (Engine.resetAt n).Inv := (Engine.inv_reset.releaseCipher n).releaseTemp n

/-- Replacing one instance by one that meets the invariant. -/
theorem enginesInv_set {es : List Engine} {e : Engine} (h : ∀ x ∈ es, x.Inv) (n : Nat) (he : e.Inv) :
    ∀ x ∈ es.set n e, x.Inv := fun x hx => by
  rcases List.mem_or_eq_of_mem_set hx with hx | rfl
  · exact h x hx
  · exact he

/-- Changing one instance in a way that keeps the invariant. -/
theorem enginesInv_modify {es : List Engine} {f : Engine → Engine} (h : ∀ x ∈ es, x.Inv) (n : Nat)
    (hf : ∀ x : Engine, x.Inv → (f x).Inv) : ∀ x ∈ es.modify n f, x.Inv := fun x hx => by
  obtain ⟨m, hm⟩ := List.mem_iff_getElem?.1 hx
  rw [List.getElem?_modify] at hm
  obtain ⟨y, hy, rfl⟩ := Option.map_eq_some_iff.1 hm
  have hinv := h y (List.mem_of_getElem? hy)
  split
  · exact hf y hinv
  · exact hinv

/-! ### The commands in flight -/

/-- What the invariant asks of the commands in flight, on a machine with `n` instances: each is on an instance that
exists, and SETKEY is alone on its own (R48, R82). -/
structure PortInv (n : Nat) (fs : List InFlight) : Prop where
  onInstance : ∀ f ∈ fs, f.inst < n
  setkeyAlone : fs.Pairwise fun f g =>
    f.inst = g.inst → Instr.isSetkey f.instr = false ∧ Instr.isSetkey g.instr = false

theorem State.Inv.port {s : State} (h : s.Inv) : PortInv s.engines.length s.inFlight := ⟨h.inFlight, h.setkeyAlone⟩

/-- Commands that end leave the others as the invariant asks. -/
theorem PortInv.sublist {n : Nat} {fs gs : List InFlight} (h : PortInv n fs) (hsub : gs.Sublist fs) : PortInv n gs :=
  ⟨fun f hf => h.onInstance f (hsub.mem hf), h.setkeyAlone.sublist hsub⟩

/-- Marks play no part in it. -/
theorem PortInv.map {n : Nat} {fs : List InFlight} {f : InFlight → InFlight} (h : PortInv n fs)
    (hf : KeepsCommand f) : PortInv n (fs.map f) := by
  refine ⟨fun x hx => ?_, List.pairwise_map.2 (h.setkeyAlone.imp fun {x y} hxy => ?_)⟩
  · obtain ⟨y, hy, rfl⟩ := List.mem_map.1 hx
    exact (hf y).1 ▸ h.onInstance y hy
  · rwa [(hf x).1, (hf x).2, (hf y).1, (hf y).2]

theorem PortInv.disturbBy {n : Nat} {fs : List InFlight} (h : PortInv n fs) (i : Instr) :
    PortInv n (disturbBy i fs) := by
  obtain ⟨f, hf, heq⟩ := disturbBy_eq_map i
  exact heq fs ▸ h.map hf

theorem PortInv.disturbAt {n : Nat} {fs : List InFlight} (h : PortInv n fs) (a : Nat) : PortInv n (disturbAt a fs) := by
  obtain ⟨f, hf, heq⟩ := disturbAt_eq_map a
  exact heq fs ▸ h.map hf

/-- With no clash of R82, the command may join those in flight. -/
theorem State.mayJoin_of_rekeyClash {s : State} {inst : Nat} {i : Instr} (h : s.rekeyClash inst i = false) :
    s.MayJoin inst i := by
  intro f hf hinst
  simpa [hinst] using List.any_eq_false.1 h f hf

/-- Marks play no part in whether a command may join. -/
theorem State.MayJoin.disturbBy {s : State} {inst : Nat} {i : Instr} (h : s.MayJoin inst i) (j : Instr) :
    State.MayJoin { s with inFlight := disturbBy j s.inFlight } inst i := by
  obtain ⟨f, hf, heq⟩ := disturbBy_eq_map j
  intro x hx hinst
  obtain ⟨y, hy, rfl⟩ := List.mem_map.1 (heq s.inFlight ▸ hx)
  rw [(hf y).2]
  exact h y hy ((hf y).1.symm.trans hinst)

/-- A command that may join those in flight joins them (R82). -/
theorem PortInv.join {n : Nat} {fs : List InFlight} {x : InFlight} (h : PortInv n fs) (hinst : x.inst < n)
    (hjoin : ∀ f ∈ fs, f.inst = x.inst → Instr.isSetkey x.instr = false ∧ Instr.isSetkey f.instr = false) :
    PortInv n (fs ++ [x]) := by
  refine ⟨fun f hf => ?_, List.pairwise_append.2 ⟨h.setkeyAlone, List.pairwise_singleton _ _, fun f hf g hg heq => ?_⟩⟩
  · rcases List.mem_append.1 hf with hf | hf
    · exact h.onInstance f hf
    · obtain rfl := List.mem_singleton.1 hf
      exact hinst
  · obtain rfl := List.mem_singleton.1 hg
    exact (hjoin f hf heq).symm

/-! ### The invariant of the state, update by update -/

/-- An octet that may be written is one of the address space (R63). -/
theorem State.lt_of_writable {s : State} {a : Nat} (h : s.writable a = true) : a < 2 ^ s.params.addrW := by
  simp only [State.writable, State.present, Bool.and_eq_true, decide_eq_true_eq] at h
  exact h.1.1

section Inv
variable {s : State} (h : s.Inv)
include h

theorem State.Inv.withQueue (q : List HostEvent) : State.Inv { s with queue := q } :=
  ⟨h.mem_wf, h.mem_within, h.engines, h.inFlight, h.setkeyAlone⟩

theorem State.Inv.withResponses (rs : List Response) : State.Inv { s with responses := rs } :=
  ⟨h.mem_wf, h.mem_within, h.engines, h.inFlight, h.setkeyAlone⟩

theorem State.Inv.respond (st : Status) (v : BitVec 8) : (s.respond st v).Inv := h.withResponses _

theorem State.Inv.spendFree : s.spendFree.Inv :=
  ⟨h.mem_wf, h.mem_within, h.engines, h.inFlight, h.setkeyAlone⟩

theorem State.Inv.select (inst : Nat) (d : Bool) : (s.select inst d).Inv :=
  ⟨h.mem_wf, h.mem_within, h.engines, h.inFlight, h.setkeyAlone⟩

theorem State.Inv.withInFlight {fs : List InFlight} (hport : PortInv s.engines.length fs) :
    State.Inv { s with inFlight := fs } :=
  ⟨h.mem_wf, h.mem_within, h.engines, hport.onInstance, hport.setkeyAlone⟩

theorem State.Inv.withMem {m : Memory} (hwf : Memory.wf m) (hwithin : Memory.within m s.params.addrW) :
    State.Inv { s with mem := m } :=
  ⟨hwf, hwithin, h.engines, h.inFlight, h.setkeyAlone⟩

theorem State.Inv.withEngines {es : List Engine} (hlen : es.length = s.engines.length) (hes : ∀ e ∈ es, e.Inv) :
    State.Inv { s with engines := es } :=
  ⟨h.mem_wf, h.mem_within, hes, fun f hf => hlen ▸ h.inFlight f hf, h.setkeyAlone⟩

theorem State.Inv.setEngine {e : Engine} (he : e.Inv) : (s.setEngine e).Inv :=
  h.withEngines List.length_set (enginesInv_set h.engines _ he)

theorem State.Inv.failSetkey {e : Engine} (he : e.Inv) (st : Status) : (s.failSetkey e st).Inv :=
  (h.setEngine (he.afterFailedSetkey _)).respond st 0

theorem State.Inv.commitKey {e : Engine} (he : e.Inv) (v : Variant) (key : Octets v.keyLength) :
    (s.commitKey e (expandKey v key)).Inv :=
  (h.setEngine ((he.commitKey v key).releaseTemp _)).spendFree.respond .ok 0

/-- A block is written inside the address space, since every octet of its buffer may be written (R63, R253). -/
theorem State.Inv.commitBlock {e : Engine} (he : e.Inv) {a : Nat} (hw : s.bufferWritable a 16) (out : Octets 16) :
    (s.commitBlock e a out).Inv := by
  have hinside (j : Fin 16) : a + j < 2 ^ s.params.addrW := State.lt_of_writable (hw j)
  have hmem : State.Inv { s with mem := s.mem.write a out } :=
    h.withMem (Memory.wf_write h.mem_wf a out) (Memory.within_write h.mem_within out hinside)
  exact (hmem.setEngine (he.releaseCipher _)).spendFree.respond .ok 0

/-- `ConcurrentRekey` takes commands away and unkeys an instance (R255). -/
theorem State.Inv.abortRekey (inst : Nat) : (s.abortRekey inst).Inv :=
  (((h.withInFlight (h.port.sublist List.filter_sublist)).withEngines (List.length_modify ..)
    (enginesInv_modify h.engines inst fun _ he => (he.unkey.releaseCipher _).releaseTemp _)).withResponses _).spendFree

end Inv

/-! ### Every step keeps the invariant -/

theorem exec_keepsInv {i : Instr} {s t : State} (hs : s.Inv) (h : exec i s = .next t) : t.Inv := by
  obtain ⟨e, he, ⟨-, st, v, rfl⟩ | ⟨-, ⟨st, rfl⟩ | ⟨v, key, rfl⟩⟩ | ⟨a, b, out, -, hw, rfl⟩⟩ := exec_next_effect h
  · exact hs.respond st v
  · exact hs.failSetkey (hs.engine he) st
  · exact hs.commitKey (hs.engine he) v key
  · exact hs.commitBlock (hs.engine he) hw out

theorem runCommand_keepsInv {inst : Nat} {c : Command} {s t : State} (hs : s.Inv) (h : runCommand inst c s = .next t) :
    t.Inv := by
  obtain ⟨-, h'⟩ | ⟨-, ⟨err, -, h'⟩ | ⟨i, -, ⟨-, h'⟩ | ⟨-, h'⟩⟩⟩ := runCommand_cases inst c s <;> rw [h'] at h
  · cases h
  · cases h
    exact (hs.select inst false).respond _ _
  · cases h
    exact hs.abortRekey inst
  · exact exec_keepsInv ((hs.withInFlight (hs.port.disturbBy i)).select _ _) h

theorem runIssue_keepsInv {inst : Nat} {c : Command} {s t : State} (hs : s.Inv) (h : runIssue inst c s = .next t) :
    t.Inv := by
  obtain ⟨-, h'⟩ | ⟨hinst, ⟨err, -, h'⟩ | ⟨i, -, ⟨-, h'⟩ | ⟨hclash, h'⟩⟩⟩ := runIssue_cases inst c s <;>
    rw [h'] at h <;> cases h
  · exact (hs.select inst false).respond _ _
  · exact hs.abortRekey inst
  · have hjoin := (State.mayJoin_of_rekeyClash hclash).disturbBy i
    exact hs.withInFlight ((hs.port.disturbBy i).join hinst hjoin)

theorem runComplete_keepsInv {k : Nat} {s t : State} (hs : s.Inv) (h : runComplete k s = .next t) : t.Inv := by
  obtain ⟨-, h'⟩ | ⟨f, -, h'⟩ := runComplete_cases k s <;> rw [h'] at h
  · cases h
  · exact exec_keepsInv ((hs.withInFlight (hs.port.sublist (List.eraseIdx_sublist ..))).select _ _) h

theorem runReset_keepsInv {inst : Nat} {s t : State} (hs : s.Inv) (h : runReset inst s = .next t) : t.Inv := by
  obtain ⟨-, h'⟩ | ⟨-, ⟨-, h'⟩ | ⟨-, h'⟩⟩ := runReset_cases inst s <;> rw [h'] at h <;> cases h
  exact (hs.withEngines List.length_set (enginesInv_set hs.engines inst (Engine.inv_resetAt _))).spendFree

theorem runHostStore_keepsInv {a : Nat} {v : Byte} {s t : State} (hs : s.Inv) (h : runHostStore a v s = .next t) :
    t.Inv := by
  obtain ⟨-, h'⟩ | ⟨ha, h'⟩ := runHostStore_cases a v s <;> rw [h'] at h <;> cases h
  exact (hs.withMem (Memory.wf_set hs.mem_wf a v) (Memory.within_set hs.mem_within ha v)).withInFlight
    (hs.port.disturbAt a)

/-- Settles O42: each action of the host keeps the invariant. -/
theorem stepKeepsInvariant : Obligations.StepKeepsInvariant := by
  intro s t hs h
  obtain ⟨-, h'⟩ | ⟨inst, c, q, -, h'⟩ | ⟨inst, c, q, -, h'⟩ | ⟨k, q, -, h'⟩ | ⟨inst, q, -, h'⟩ | ⟨a, v, q, -, h'⟩ :=
    step_cases s <;> rw [h'] at h
  · cases h
    exact hs
  · exact runCommand_keepsInv (hs.withQueue q) h
  · exact runIssue_keepsInv (hs.withQueue q) h
  · exact runComplete_keepsInv (hs.withQueue q) h
  · exact runReset_keepsInv (hs.withQueue q) h
  · exact runHostStore_keepsInv (hs.withQueue q) h

/-- Settles O43: the one instance is as after its reset, and no octet and no command is there. -/
theorem resetMeetsInvariant : Obligations.ResetMeetsInvariant where
  mem_wf := Memory.wf_reset
  mem_within := List.forall_mem_nil _
  engines := List.forall_mem_singleton.2 Engine.inv_reset
  inFlight := List.forall_mem_nil _
  setkeyAlone := List.Pairwise.nil

/-! ### Frames of the commands -/

/-- Settles O36: the queries answer only, and ENCRYPT and DECRYPT replace their instance by one with other working
registers and the same key, backend and `temp`. -/
theorem constCommandsKeepKeys : Obligations.ConstCommandsKeepKeys := by
  intro i s t hi h
  refine ⟨exec_otherEnginesSame h, exec_sameSurroundings h, ?_⟩
  obtain ⟨e, he, ⟨-, st, v, rfl⟩ | ⟨hset, -⟩ | ⟨a, b, out, hcipher, -, rfl⟩⟩ := exec_next_effect h
  · exact ⟨fun n e' he' => ⟨e', he', rfl, rfl, rfl⟩, fun _ => ⟨rfl, rfl⟩⟩
  · rw [hi] at hset
    cases hset
  · refine ⟨fun n e' he' => ?_, fun hquery => ?_⟩
    · rw [State.commitBlock_engines] at he'
      by_cases hn : s.target = n
      · subst hn
        rw [List.getElem?_set_self (State.target_lt_of_engine? he)] at he'
        cases he'
        exact ⟨e, he, rfl, rfl, rfl⟩
      · rw [List.getElem?_set_ne hn] at he'
        exact ⟨e', he', rfl, rfl, rfl⟩
    · rcases hcipher with rfl | rfl <;> rcases hquery with hq | hq <;> cases hq

/-- A failed SETKEY does not write the working registers. -/
theorem Engine.afterFailedSetkey_registers (e : Engine) (p : FailPolicy) :
    (e.afterFailedSetkey p).s = e.s ∧ (e.afterFailedSetkey p).t = e.t := by
  cases p <;> exact ⟨rfl, rfl⟩

/-- Settles O37: SETKEY replaces its instance by one with the same backend, `s` and `t`, whether it fails or commits. -/
theorem setkeyFrame : Obligations.SetkeyFrame := by
  intro klen keyAddr s t h
  have frame {e' : Engine} {e : Engine} (he : s.engine? = some e) (ht : t.engines = s.engines.set s.target e') :=
    State.engine?_set he ht (exec_sameSurroundings h).target
  obtain ⟨e, he, ⟨hset, -⟩ | ⟨-, ⟨st, rfl⟩ | ⟨v, key, rfl⟩⟩ | ⟨a, b, out, hcipher, -⟩⟩ := exec_next_effect h
  · cases hset
  · obtain ⟨hs, ht⟩ := e.afterFailedSetkey_registers s.params.setkeyFailPolicy
    exact ⟨rfl, exec_otherEnginesSame h, exec_sameSurroundings h, e, _, he, frame he rfl,
      e.afterFailedSetkey_backend _, hs, ht⟩
  · exact ⟨rfl, exec_otherEnginesSame h, exec_sameSurroundings h, e, _, he, frame he rfl, rfl, rfl, rfl⟩
  · rcases hcipher with hc | hc <;> cases hc

/-! ### Instances do not interact -/

theorem runCommand_otherEngine {inst n : Nat} {c : Command} {s t : State} (h : runCommand inst c s = .next t)
    (hn : n ≠ inst) : t.engines[n]? = s.engines[n]? := by
  obtain ⟨-, h'⟩ | ⟨-, ⟨err, -, h'⟩ | ⟨i, -, ⟨-, h'⟩ | ⟨-, h'⟩⟩⟩ := runCommand_cases inst c s <;> rw [h'] at h
  · cases h
  · cases h
    rfl
  · cases h
    exact List.getElem?_modify_ne _ _ (Ne.symm hn)
  · exact (exec_otherEnginesSame h).2 n hn

theorem runIssue_otherEngine {inst n : Nat} {c : Command} {s t : State} (h : runIssue inst c s = .next t)
    (hn : n ≠ inst) : t.engines[n]? = s.engines[n]? := by
  obtain ⟨-, h'⟩ | ⟨-, ⟨err, -, h'⟩ | ⟨i, -, ⟨-, h'⟩ | ⟨-, h'⟩⟩⟩ := runIssue_cases inst c s <;> rw [h'] at h <;> cases h
  · rfl
  · exact List.getElem?_modify_ne _ _ (Ne.symm hn)
  · rfl

theorem runComplete_otherEngine {k n : Nat} {s t : State} (h : runComplete k s = .next t)
    (hn : (s.inFlight[k]?).map InFlight.inst ≠ some n) : t.engines[n]? = s.engines[n]? := by
  obtain ⟨-, h'⟩ | ⟨f, hf, h'⟩ := runComplete_cases k s <;> rw [h'] at h
  · cases h
  · refine (exec_otherEnginesSame h).2 n ?_
    rintro rfl
    exact hn (congrArg (Option.map InFlight.inst) hf)

theorem runReset_otherEngine {inst n : Nat} {s t : State} (h : runReset inst s = .next t) (hn : n ≠ inst) :
    t.engines[n]? = s.engines[n]? := by
  obtain ⟨-, h'⟩ | ⟨-, ⟨-, h'⟩ | ⟨-, h'⟩⟩ := runReset_cases inst s <;> rw [h'] at h <;> cases h
  exact List.getElem?_set_ne (Ne.symm hn)

theorem runHostStore_engines {a : Nat} {v : Byte} {s t : State} (h : runHostStore a v s = .next t) :
    t.engines = s.engines := by
  obtain ⟨-, h'⟩ | ⟨-, h'⟩ := runHostStore_cases a v s <;> rw [h'] at h <;> cases h
  rfl

/-- An action of the host leaves every instance but its subject as it was (R48, R266). -/
theorem runEvent_otherEngine {ev : HostEvent} {n : Nat} {s t : State} (h : runEvent ev s = .next t)
    (hn : ev.subject s ≠ some n) : t.engines[n]? = s.engines[n]? := by
  cases ev with
  | command inst c => exact runCommand_otherEngine h fun heq => hn (congrArg some heq.symm)
  | issue inst c => exact runIssue_otherEngine h fun heq => hn (congrArg some heq.symm)
  | complete k => exact runComplete_otherEngine h hn
  | resetInst inst => exact runReset_otherEngine h fun heq => hn (congrArg some heq.symm)
  | hostStore a v => exact congrArg (·[n]?) (runHostStore_engines h)

/-- Settles O46: each action of the host reaches the instance it names and no other. -/
theorem instancesIndependent : Obligations.InstancesIndependent := by
  intro s t ev rest n hqueue h hsub
  rw [step_of_queue_cons hqueue] at h
  exact runEvent_otherEngine (s := { s with queue := rest }) h hsub

/-! ### Reset and the steps of the port -/

/-- Settles O6: each is a field of the reset state. -/
theorem resetLeavesNoKey : Obligations.ResetLeavesNoKey := ⟨rfl, rfl, rfl, rfl, rfl, rfl, rfl, rfl⟩

/-- With nothing to do the block keeps its state (R40, R268). -/
theorem step_of_queue_nil {s : State} (h : s.queue = []) : step s = .next s := by
  unfold step runNext
  rw [h]

/-- A command that may join those in flight is in flight from its issue on (R81). -/
theorem runIssue_of_mayJoin {inst : Nat} {c : Command} {s : State} {i : Instr} (hinst : inst < s.engines.length)
    (hdec : decode c = .ok i) (hjoin : s.MayJoin inst i) :
    runIssue inst c s = .next { s with
      inFlight := disturbBy i s.inFlight ++ [{ inst := inst, instr := i, disturbed := s.bufferClash i }] } := by
  simp [runIssue, State.hasInstance, hinst, hdec, State.rekeyClash_of_mayJoin hjoin]

/-- A command in flight takes effect when the host's action names it (R10, R81). -/
theorem runComplete_of_inFlight {k : Nat} {s : State} {f : InFlight} (h : s.inFlight[k]? = some f) :
    runComplete k s =
      exec f.instr ({ s with inFlight := s.inFlight.eraseIdx k }.select f.inst f.disturbed) := by
  simp only [runComplete, h]

/-- A host store inside the address space places its octet (R43, R61). -/
theorem runHostStore_of_lt {a : Nat} {s : State} (h : a < 2 ^ s.params.addrW) (v : Byte) :
    runHostStore a v s = .next { s with mem := s.mem.set a v, inFlight := disturbAt a s.inFlight } := if_pos h

/-- Settles O10: the marks are those of `disturbBy`, the mark of the command issued is that of `State.bufferClash`, and
a completion runs the command in flight with the mark it has. -/
theorem idleIssueAndComplete : Obligations.IdleIssueAndComplete := by
  intro s rest
  refine ⟨step_of_queue_nil, fun inst c i hqueue hinst hdec hjoin => ?_, fun k f hqueue hf => ?_⟩
  · refine ⟨disturbBy i s.inFlight, s.bufferClash i, disturbBy_marked i s.inFlight, State.bufferClash_iff, ?_⟩
    calc step s = runIssue inst c { s with queue := rest } := step_of_queue_cons hqueue
      _ = _ := runIssue_of_mayJoin hinst hdec hjoin
  · calc step s = runComplete k { s with queue := rest } := step_of_queue_cons hqueue
      _ = _ := runComplete_of_inFlight hf

/-- Settles O12: the memory is that of `Memory.set`, and the marks are those of `disturbAt`. -/
theorem hostStorePlacesOctet : Obligations.HostStorePlacesOctet := by
  intro s a v rest hqueue ha
  refine ⟨s.mem.set a v, disturbAt a s.inFlight, fun b => ?_, disturbAt_marked a s.inFlight, ?_⟩
  · simp only [Memory.get?_set, eq_comm (a := a)]
  · calc step s = runHostStore a v { s with queue := rest } := step_of_queue_cons hqueue
      _ = _ := runHostStore_of_lt (s := { s with queue := rest }) ha v

end Sys2Proof.Machine

/-! What the memory family adds: what ENCRYPT and DECRYPT write, on which octets the effect of a command depends, and
that commands whose buffers do not clash commute. -/

namespace Sys2Proof.Machine

/-! ### The column of a StoreWord -/

/-- Octet `k` of column `c` after a StoreWord on it (R161). -/
theorem storeWord_column (w : Word) (c : Fin 4) (out : Octets 16) {k : Nat} (hk : k < 4) :
    storeWord w c out ⟨4 * c + k, by omega⟩ = wordOctet w k := by
  have hcol : (4 * c.val + k) / 4 = c.val := by omega
  have hlane : (4 * c.val + k) % 4 = k := by omega
  rw [storeWord_same w c out _ hcol, hlane]

/-- Octet `k` of a loaded column (R160). -/
theorem wordOctet_loadWord {n : Nat} (buf : Octets n) {c k : Nat} (h : 4 * c + 3 < n) (hk : k < 4) :
    wordOctet (loadWord buf c h) k = buf ⟨4 * c + k, by omega⟩ := by
  match k, hk with
  | 0, _ => exact byte3_mkWord ..
  | 1, _ => exact byte2_mkWord ..
  | 2, _ => exact byte1_mkWord ..
  | 3, _ => exact byte0_mkWord ..

/-- A word stored in a column is the word loaded from it (R160, R161). -/
theorem loadWord_storeWord (w : Word) (c : Fin 4) (out : Octets 16) :
    loadWord (storeWord w c out) c (by omega) = w := by
  have hoctet (k : Nat) (hk : k < 4) : wordOctet (loadWord (storeWord w c out) c (by omega)) k = wordOctet w k :=
    (wordOctet_loadWord _ _ hk).trans (storeWord_column w c out hk)
  exact word_ext (hoctet 0 (by decide)) (hoctet 1 (by decide)) (hoctet 2 (by decide)) (hoctet 3 (by decide))

/-- Storing the word loaded from a column changes no octet. -/
theorem storeWord_loadWord (c : Fin 4) (out : Octets 16) : storeWord (loadWord out c (by omega)) c out = out := by
  funext j
  by_cases hj : j.val / 4 = c.val
  · have hjeq : 4 * c.val + j.val % 4 = j.val := by omega
    rw [storeWord_same _ c out j hj, wordOctet_loadWord out _ (Nat.mod_lt _ (by decide))]
    exact congrArg out (Fin.ext hjeq)
  · exact storeWord_other _ c out j hj

/-- Settles O59: octet `4c + k` of the column is octet `k` of the word in both directions, and the octets of another
column stand. -/
theorem storeWordInvertsLoadWord : Obligations.StoreWordInvertsLoadWord := fun w c out =>
  ⟨loadWord_storeWord w c out, fun j hj => storeWord_other w c out j (by omega), storeWord_loadWord c out⟩

/-! ### What a command leaves in memory -/

/-- Every octet outside the output buffer reads as before (R65, R72). -/
theorem exec_get?_of_not_writesAt {i : Instr} {s t : State} {a : Nat} (h : exec i s = .next t)
    (ha : ¬ Instr.WritesAt i a) : Memory.get? t.mem a = Memory.get? s.mem a := by
  obtain ⟨e, -, ⟨-, st, v, rfl⟩ | ⟨-, ⟨st, rfl⟩ | ⟨v, key, rfl⟩⟩ | ⟨x, b, out, hcipher, -, rfl⟩⟩ := exec_next_effect h
  · rfl
  · rfl
  · rfl
  · have hout : ¬ (b ≤ a ∧ a < b + 16) := by rcases hcipher with rfl | rfl <;> exact ha
    rw [State.commitBlock_mem, Memory.get?_write_outside _ _ _ _ (by omega)]

/-- Settles O38: only a committed block writes memory, and it lies in the output buffer. -/
theorem onlyOutputBlockWritten : Obligations.OnlyOutputBlockWritten := fun _ _ _ _ h ha =>
  exec_get?_of_not_writesAt h ha

/-- A command gives one response, so its status and value are determined (R95). -/
theorem State.Answers.unique {s t : State} {st st' : Status} {v v' : BitVec 8} (h : s.Answers t st v)
    (h' : s.Answers t st' v') : st = st' ∧ v = v' := by
  have heq : s.responses ++ [_] = s.responses ++ [_] := h.symm.trans h'
  simpa using heq

/-- A command either answers OK, or fails: it then writes no octet and answers the value 0, and the selected instance is
treated as a failed SETKEY's or left alone. `IllegalCommand` and `ConcurrentRekey` come from no command that runs
(R251 to R255, R258). -/
theorem exec_ok_or_fails {i : Instr} {s t : State} (h : exec i s = .next t) :
    (∃ v, s.Answers t .ok v) ∨
    ∃ st, st ≠ .ok ∧ st ≠ .illegalCommand ∧ st ≠ .concurrentRekey ∧
      ((Instr.isSetkey i = false ∧ t = s.raiseStatus st) ∨
       (Instr.isSetkey i = true ∧ ∃ e, s.engine? = some e ∧ t = s.failSetkey e st)) := by
  obtain ⟨e, he, ⟨-, hi, -, rfl⟩ | ⟨a, b, k, hi, -, -, rfl⟩ |
    ⟨klen, a, rfl, ⟨-, rfl⟩ | ⟨v, -, ⟨-, rfl⟩ | ⟨key, -, rfl⟩⟩⟩ |
    ⟨a, b, k, block, -, -, -, ⟨-, -, rfl⟩ | ⟨-, -, rfl⟩⟩ | ⟨k, -, -, rfl⟩ | ⟨-, rfl⟩⟩ := exec_next_cases h
  · exact .inr ⟨.notKeyed, by decide, by decide, by decide, .inl ⟨hi, rfl⟩⟩
  · exact .inr ⟨.bufferFault, by decide, by decide, by decide, .inl ⟨by rcases hi with rfl | rfl <;> rfl, rfl⟩⟩
  · exact .inr ⟨.invalidKeyLength, by decide, by decide, by decide, .inr ⟨rfl, e, he, rfl⟩⟩
  · exact .inr ⟨.bufferFault, by decide, by decide, by decide, .inr ⟨rfl, e, he, rfl⟩⟩
  · exact .inl ⟨0, rfl⟩
  · exact .inl ⟨0, rfl⟩
  · exact .inl ⟨0, rfl⟩
  · exact .inl ⟨_, rfl⟩
  · exact .inl ⟨_, rfl⟩

/-- Under the policy `preserve` a failed SETKEY leaves every instance as it was (R189). -/
theorem State.failSetkey_engines_of_preserve {s : State} {e : Engine} (he : s.engine? = some e) (st : Status)
    (hp : s.params.setkeyFailPolicy = .preserve) : (s.failSetkey e st).engines = s.engines := by
  rw [State.failSetkey_engines, hp, Engine.afterFailedSetkey, State.set_engine?_self he]

/-- Settles O39: a command that is not OK only raises its status, or is a failed SETKEY, which may unkey the engine. -/
theorem faultWritesNothing : Obligations.FaultWritesNothing := by
  intro i s t st value h hans hst
  obtain ⟨v, hok⟩ | ⟨st', -, -, -, ⟨-, rfl⟩ | ⟨hset, e, he, rfl⟩⟩ := exec_ok_or_fails h
  · exact absurd (hans.unique hok).1 hst
  · obtain ⟨-, rfl⟩ := hans.unique (st' := st') (v' := 0) rfl
    exact ⟨rfl, rfl, fun _ => rfl⟩
  · obtain ⟨-, rfl⟩ := hans.unique (st' := st') (v' := 0) rfl
    refine ⟨rfl, rfl, ?_⟩
    rintro (hi | hp)
    · cases hi.symm.trans hset
    · exact State.failSetkey_engines_of_preserve he st' hp

/-! ### ENCRYPT and DECRYPT as one operation -/

/-- ENCRYPT and DECRYPT are `runCipher` of a cipher and of the schedule it reads (R200, R215). -/
theorem exec_eq_runCipher {i : Instr} {a b : Nat} (hi : i = .encrypt a b ∨ i = .decrypt a b) :
    ∃ sched cipher, ∀ s, exec i s = runCipher sched cipher a b s := by
  rcases hi with rfl | rfl
  · exact ⟨KeyState.W, encryptBlock, fun _ => rfl⟩
  · exact ⟨KeyState.Winv, decryptBlock, fun _ => rfl⟩

/-- The key of the selected instance, if it holds one. -/
def State.key? (s : State) : Option KeyState := s.engine?.bind Engine.key

/-- The block that a cipher makes of the input at an address: none without a key or with an octet that may not be read.
It does not depend on the output address. -/
def State.cipherResult (s : State) (cipher : KeyState → Octets 16 → Octets 16) (inAddr : Nat) : Option (Octets 16) :=
  s.key?.bind fun k => (s.readBuffer inAddr 16).map (cipher k)

section runCipher
variable {sched : KeyState → List Word} {cipher : KeyState → Octets 16 → Octets 16} {a b : Nat} {s t : State}

/-- A cipher either leaves its result at the output address, or has no result or no place for it, and then answers with
a status that is not OK and writes no octet (R200, R215, R258). -/
theorem runCipher_effect (h : runCipher sched cipher a b s = .next t) :
    (∃ out, s.cipherResult cipher a = some out ∧ s.bufferWritable b 16 ∧ t.mem = s.mem.write b out) ∨
    ((s.cipherResult cipher a = none ∨ ¬ s.bufferWritable b 16) ∧ ¬ s.Answers t .ok 0 ∧ t.mem = s.mem) := by
  have fails (st : Status) (hst : st ≠ .ok) : ¬ s.Answers (s.raiseStatus st) .ok 0 := fun hok =>
    hst (hok.unique (st' := st) (v' := 0) rfl).1.symm
  obtain ⟨-, h'⟩ | ⟨e, he, ⟨hk, h'⟩ | ⟨k, hk, ⟨hbuf, h'⟩ | ⟨block, hb, hw, ⟨-, h'⟩ | ⟨-, h'⟩⟩⟩⟩ :=
    runCipher_cases sched cipher a b s <;> rw [h'] at h <;> cases h
  · exact .inr ⟨.inl (by simp [State.cipherResult, State.key?, he, hk]), fails _ (by decide), rfl⟩
  · refine .inr ⟨?_, fails _ (by decide), rfl⟩
    by_cases hr : s.bufferReadable a 16
    · exact .inr fun hw => hbuf ⟨hr, hw⟩
    · exact .inl (by simp [State.cipherResult, State.readBuffer_eq_none.2 hr])
  · exact .inl ⟨cipher k block, by simp [State.cipherResult, State.key?, he, hk, hb], hw, State.commitBlock_mem ..⟩

/-- A cipher that answers OK has written its result. -/
theorem runCipher_write_of_ok (h : runCipher sched cipher a b s = .next t) (hok : s.Answers t .ok 0) :
    ∃ out, s.cipherResult cipher a = some out ∧ t.mem = s.mem.write b out := by
  obtain ⟨out, hres, -, hmem⟩ | ⟨-, hnot, -⟩ := runCipher_effect h
  · exact ⟨out, hres, hmem⟩
  · exact absurd hok hnot

/-- The octets written are the same at any two output addresses (R77). -/
theorem runCipher_get?_aliasing {u : State} {b' : Nat} (h : runCipher sched cipher a b s = .next t)
    (h' : runCipher sched cipher a b' s = .next u) (hok : s.Answers t .ok 0) (hok' : s.Answers u .ok 0) (j : Fin 16) :
    Memory.get? t.mem (b + j) = Memory.get? u.mem (b' + j) := by
  obtain ⟨out, hres, hmem⟩ := runCipher_write_of_ok h hok
  obtain ⟨out', hres', hmem'⟩ := runCipher_write_of_ok h' hok'
  obtain rfl : out = out' := Option.some.inj (hres.symm.trans hres')
  rw [hmem, hmem', Memory.get?_write_inside, Memory.get?_write_inside]

/-- On a keyed instance a buffer with an octet that may not be accessed is a `BufferFault` (R253, R257). -/
theorem runCipher_of_inaccessible {e : Engine} (he : s.engine? = some e) (hkeyed : e.keyed = true)
    (hbuf : ¬ (s.bufferReadable a 16 ∧ s.bufferWritable b 16)) :
    runCipher sched cipher a b s = .next (s.raiseStatus .bufferFault) := by
  obtain ⟨k, hk⟩ := Option.isSome_iff_exists.1 hkeyed
  simp only [runCipher, he, hk]
  cases hb : s.readBuffer a 16 with
  | none => rfl
  | some block =>
    obtain ⟨hr, -⟩ := State.readBuffer_eq_some.1 hb
    exact if_neg fun hw => hbuf ⟨hr, hw⟩

/-- A cipher completes on every instance that meets the invariant (R296). -/
theorem runCipher_completes (hwords : ∀ k : KeyState, k.Expanded → hasWords k.variant (sched k) = true) {e : Engine}
    (he : s.engine? = some e) (hinv : e.Inv) : ∃ t, runCipher sched cipher a b s = .next t := by
  obtain ⟨hnone, -⟩ | ⟨e', he', ⟨-, h'⟩ | ⟨k, hk, ⟨-, h'⟩ | ⟨block, -, -, ⟨-, h'⟩ | ⟨hno, -⟩⟩⟩⟩ :=
    runCipher_cases sched cipher a b s
  · rw [he] at hnone
    cases hnone
  · exact ⟨_, h'⟩
  · exact ⟨_, h'⟩
  · exact ⟨_, h'⟩
  · obtain rfl : e = e' := Option.some.inj (he.symm.trans he')
    cases (hwords k (hinv.key k hk)).symm.trans hno

end runCipher

/-- Settles O29: what a cipher makes of its input does not mention the output address. -/
theorem aliasingSameOctets : Obligations.AliasingSameOctets := by
  rintro s t u a b b' (⟨ht, hu⟩ | ⟨ht, hu⟩) hok hok' j
  · exact runCipher_get?_aliasing ht hu hok hok' j
  · exact runCipher_get?_aliasing ht hu hok hok' j

/-! ### Buffers past the top of the address space -/

/-- An octet that may be read is one of the address space (R63). -/
theorem State.lt_of_readable {s : State} {a : Nat} (h : s.readable a = true) : a < 2 ^ s.params.addrW := by
  simp only [State.readable, State.present, Bool.and_eq_true, decide_eq_true_eq] at h
  exact h.1.1

/-- A buffer all of whose octets lie in the address space ends in it (R63). -/
theorem add_le_of_forall_add_lt {a n top : Nat} (hn : 0 < n) (h : ∀ j : Fin n, a + j < top) : a + n ≤ top := by
  have hlast : a + (n - 1) < top := h ⟨n - 1, by omega⟩
  omega

/-- A buffer that may be read ends in the address space (R63). -/
theorem State.bufferReadable_le {s : State} {a n : Nat} (hn : 0 < n) (h : s.bufferReadable a n) :
    a + n ≤ 2 ^ s.params.addrW := add_le_of_forall_add_lt hn fun j => State.lt_of_readable (h j)

/-- A buffer that may be written ends in the address space (R63). -/
theorem State.bufferWritable_le {s : State} {a n : Nat} (hn : 0 < n) (h : s.bufferWritable a n) :
    a + n ≤ 2 ^ s.params.addrW := add_le_of_forall_add_lt hn fun j => State.lt_of_writable (h j)

/-- SETKEY of a legal length whose buffer may not be read is a `BufferFault` (R253). -/
theorem execSetkey_of_unreadable {s : State} {e : Engine} {klen : BitVec 8} {keyAddr : Nat} {v : Variant}
    (he : s.engine? = some e) (hlen : klen.toNat = v.keyLength) (hbuf : ¬ s.bufferReadable keyAddr v.keyLength) :
    execSetkey klen keyAddr s = .next (s.failSetkey e .bufferFault) := by
  simp only [execSetkey, he, variantOfKeyLength_of_toNat hlen, State.readBuffer_eq_none.2 hbuf]

/-- Settles O32: a buffer that may be accessed ends in the address space, so one past its top may not be accessed. -/
theorem bufferPastTopFaults : Obligations.BufferPastTopFaults := by
  intro s e a b klen v he
  refine ⟨fun hlen htop => ?_, fun hkeyed htop i hi => ?_⟩
  · have hpos : 0 < v.keyLength := by cases v <;> decide
    have hbuf : ¬ s.bufferReadable a v.keyLength := fun hr =>
      absurd (State.bufferReadable_le hpos hr) (Nat.not_le_of_lt htop)
    exact ⟨_, execSetkey_of_unreadable he hlen hbuf, rfl, rfl⟩
  · have hbuf : ¬ (s.bufferReadable a 16 ∧ s.bufferWritable b 16) := fun ⟨hr, hw⟩ => by
      have hin := State.bufferReadable_le (by decide) hr
      have hout := State.bufferWritable_le (by decide) hw
      omega
    obtain ⟨sched, cipher, hexec⟩ := exec_eq_runCipher hi
    exact ⟨_, (hexec s).trans (runCipher_of_inaccessible he hkeyed hbuf), rfl, rfl⟩

/-! ### One command at a time -/

/-- Between the two states no `ConcurrentRekey` was answered. -/
def State.NoRekeyAnswer (s t : State) : Prop :=
  ∀ r ∈ t.responses.drop s.responses.length, r.status ≠ .concurrentRekey

theorem State.noRekeyAnswer_of_eq {s t : State} (h : t.responses = s.responses) : s.NoRekeyAnswer t := by
  simp [State.NoRekeyAnswer, h]

theorem State.noRekeyAnswer_of_answer {s t : State} {r : Response} (h : t.responses = s.responses ++ [r])
    (hr : r.status ≠ .concurrentRekey) : s.NoRekeyAnswer t := by
  simpa [State.NoRekeyAnswer, h] using hr

/-- No command that runs answers `ConcurrentRekey` (R255). -/
theorem exec_noRekeyAnswer {i : Instr} {s t : State} (h : exec i s = .next t) : s.NoRekeyAnswer t := by
  obtain ⟨v, hok⟩ | ⟨st, -, -, hst, ⟨-, rfl⟩ | ⟨-, e, -, rfl⟩⟩ := exec_ok_or_fails h
  · exact State.noRekeyAnswer_of_answer hok nofun
  · exact State.noRekeyAnswer_of_answer rfl hst
  · exact State.noRekeyAnswer_of_answer rfl hst

/-- With nothing in flight no command puts two together on an instance (R82). -/
theorem State.rekeyClash_eq_false_of_nil {s : State} (h : s.inFlight = []) (inst : Nat) (i : Instr) :
    s.rekeyClash inst i = false := by
  simp [State.rekeyClash, h]

theorem runCommand_noRekeyAnswer {inst : Nat} {c : Command} {s t : State} (hs : s.inFlight = [])
    (h : runCommand inst c s = .next t) : s.NoRekeyAnswer t := by
  obtain ⟨-, h'⟩ | ⟨-, ⟨err, -, h'⟩ | ⟨i, -, ⟨hclash, -⟩ | ⟨-, h'⟩⟩⟩ := runCommand_cases inst c s
  · cases h'.symm.trans h
  · cases h'.symm.trans h
    exact State.noRekeyAnswer_of_answer rfl nofun
  · cases (State.rekeyClash_eq_false_of_nil hs inst i).symm.trans hclash
  · exact (exec_noRekeyAnswer (h'.symm.trans h) :)

theorem runIssue_noRekeyAnswer {inst : Nat} {c : Command} {s t : State} (hs : s.inFlight = [])
    (h : runIssue inst c s = .next t) : s.NoRekeyAnswer t := by
  obtain ⟨-, h'⟩ | ⟨-, ⟨err, -, h'⟩ | ⟨i, -, ⟨hclash, -⟩ | ⟨-, h'⟩⟩⟩ := runIssue_cases inst c s
  · cases h'.symm.trans h
  · cases h'.symm.trans h
    exact State.noRekeyAnswer_of_answer rfl nofun
  · cases (State.rekeyClash_eq_false_of_nil hs inst i).symm.trans hclash
  · cases h'.symm.trans h
    exact State.noRekeyAnswer_of_eq rfl

theorem runComplete_noRekeyAnswer {k : Nat} {s t : State} (h : runComplete k s = .next t) : s.NoRekeyAnswer t := by
  obtain ⟨-, h'⟩ | ⟨f, -, h'⟩ := runComplete_cases k s
  · cases h'.symm.trans h
  · exact (exec_noRekeyAnswer (h'.symm.trans h) :)

theorem runReset_noRekeyAnswer {inst : Nat} {s t : State} (h : runReset inst s = .next t) : s.NoRekeyAnswer t := by
  obtain ⟨-, h'⟩ | ⟨-, ⟨-, h'⟩ | ⟨-, h'⟩⟩ := runReset_cases inst s <;> cases h'.symm.trans h
  exact State.noRekeyAnswer_of_eq rfl

theorem runHostStore_noRekeyAnswer {a : Nat} {v : Byte} {s t : State} (h : runHostStore a v s = .next t) :
    s.NoRekeyAnswer t := by
  obtain ⟨-, h'⟩ | ⟨-, h'⟩ := runHostStore_cases a v s <;> cases h'.symm.trans h
  exact State.noRekeyAnswer_of_eq rfl

/-- Settles O50: `ConcurrentRekey` needs a clash with a command in flight, and no command that runs answers it. -/
theorem atomicNeverConcurrentRekey : Obligations.AtomicNeverConcurrentRekey := by
  intro s t hs h
  obtain ⟨-, h'⟩ | ⟨inst, c, q, -, h'⟩ | ⟨inst, c, q, -, h'⟩ | ⟨k, q, -, h'⟩ | ⟨inst, q, -, h'⟩ | ⟨a, v, q, -, h'⟩ :=
    step_cases s <;> rw [h'] at h
  · cases h
    exact State.noRekeyAnswer_of_eq rfl
  · exact runCommand_noRekeyAnswer (s := { s with queue := q }) hs h
  · exact runIssue_noRekeyAnswer (s := { s with queue := q }) hs h
  · exact runComplete_noRekeyAnswer (s := { s with queue := q }) h
  · exact runReset_noRekeyAnswer (s := { s with queue := q }) h
  · exact runHostStore_noRekeyAnswer (s := { s with queue := q }) h

/-! ### On which octets the effect of a command depends -/

/-- A command that no other agent disturbs finds the same key and the same accessible octets in both states, at the
addresses that `P` picks. -/
structure State.AgreesOn (P : Nat → Prop) (s s' : State) : Prop where
  params : s'.params = s.params
  prot : s'.prot = s.prot
  key : s'.key? = s.key?
  undisturbed : s.disturbed = false
  undisturbed' : s'.disturbed = false
  mem : ∀ a, P a → Memory.get? s'.mem a = Memory.get? s.mem a

/-- Reading an undisturbed buffer gives the octets it holds (R64). -/
theorem State.readBuffer_eq_some_iff_holds {s : State} {a n : Nat} {v : Octets n} (hd : s.disturbed = false) :
    s.readBuffer a n = some v ↔ s.Holds a v := by
  refine ⟨fun h => ?_, fun ⟨hr, hv⟩ => State.readBuffer_of_octets hr hd hv⟩
  obtain ⟨hr, rfl⟩ := State.readBuffer_eq_some.1 h
  exact ⟨hr, State.memRead_undisturbed hr hd⟩

section AgreesOn
variable {P : Nat → Prop} {s s' : State} (h : s.AgreesOn P s')
include h

theorem State.AgreesOn.present {a : Nat} (ha : P a) : s'.present a = s.present a := by
  simp only [State.present, h.params, h.mem a ha]

theorem State.AgreesOn.readable {a : Nat} (ha : P a) : s'.readable a = s.readable a := by
  simp only [State.readable, State.restricts, h.prot, h.present ha]

theorem State.AgreesOn.writable {a : Nat} (ha : P a) : s'.writable a = s.writable a := by
  simp only [State.writable, State.restricts, h.prot, h.present ha]

theorem State.AgreesOn.bufferWritable {a n : Nat} (ha : ∀ j : Fin n, P (a + j)) :
    s'.bufferWritable a n ↔ s.bufferWritable a n :=
  forall_congr' fun j => by rw [h.writable (ha j)]

theorem State.AgreesOn.holds {a n : Nat} (ha : ∀ j : Fin n, P (a + j)) (v : Octets n) :
    s'.Holds a v ↔ s.Holds a v :=
  and_congr (forall_congr' fun j => by rw [h.readable (ha j)]) (forall_congr' fun j => by rw [h.mem _ (ha j)])

theorem State.AgreesOn.readBuffer {a n : Nat} (ha : ∀ j : Fin n, P (a + j)) : s'.readBuffer a n = s.readBuffer a n :=
  Option.ext fun v => by
    rw [State.readBuffer_eq_some_iff_holds h.undisturbed', State.readBuffer_eq_some_iff_holds h.undisturbed,
      h.holds ha v]

theorem State.AgreesOn.cipherResult {a : Nat} (ha : ∀ j : Fin 16, P (a + j))
    (cipher : KeyState → Octets 16 → Octets 16) : s'.cipherResult cipher a = s.cipherResult cipher a := by
  rw [State.cipherResult, State.cipherResult, h.key, h.readBuffer ha]

/-- A cipher leaves the same octets in two states that agree on its buffers. -/
theorem State.AgreesOn.runCipher_get? {sched : KeyState → List Word} {cipher : KeyState → Octets 16 → Octets 16}
    {a b : Nat} {t t' : State} (hin : ∀ j : Fin 16, P (a + j)) (hout : ∀ j : Fin 16, P (b + j))
    (ht : runCipher sched cipher a b s = .next t) (ht' : runCipher sched cipher a b s' = .next t') {x : Nat}
    (hx : P x) : Memory.get? t'.mem x = Memory.get? t.mem x := by
  have hres := h.cipherResult hin cipher
  have hw := h.bufferWritable hout
  obtain ⟨out, hsome, hwrite, hmem⟩ | ⟨hnone, -, hmem⟩ := runCipher_effect ht <;>
    obtain ⟨out', hsome', hwrite', hmem'⟩ | ⟨hnone', -, hmem'⟩ := runCipher_effect ht' <;> rw [hmem, hmem']
  · obtain rfl : out' = out := Option.some.inj (hsome'.symm.trans (hres.trans hsome))
    simp only [Memory.write, Memory.get?_writeList, h.mem x hx]
  · rw [hres, hw, hsome] at hnone'
    simp [hwrite] at hnone'
  · rw [← hres, ← hw, hsome'] at hnone
    simp [hwrite'] at hnone
  · exact h.mem x hx

/-- A command leaves the same octets in two states that agree on the octets it touches. -/
theorem State.AgreesOn.exec_get? {i : Instr} {t t' : State} (hP : ∀ a, Instr.Touches i a → P a)
    (ht : exec i s = .next t) (ht' : exec i s' = .next t') {x : Nat} (hx : P x) :
    Memory.get? t'.mem x = Memory.get? t.mem x := by
  have hnoWrite (hno : ¬ Instr.WritesAt i x) : Memory.get? t'.mem x = Memory.get? t.mem x := by
    rw [exec_get?_of_not_writesAt ht' hno, exec_get?_of_not_writesAt ht hno, h.mem x hx]
  cases i with
  | setkey klen keyAddr => exact hnoWrite id
  | encrypt a b =>
    exact h.runCipher_get? (fun j => hP _ (.inl ⟨by omega, by omega⟩))
      (fun j => hP _ (.inr ⟨by omega, by omega⟩)) ht ht' hx
  | decrypt a b =>
    exact h.runCipher_get? (fun j => hP _ (.inl ⟨by omega, by omega⟩))
      (fun j => hP _ (.inr ⟨by omega, by omega⟩)) ht ht' hx
  | keylen => exact hnoWrite id
  | blklen => exact hnoWrite id

end AgreesOn

/-! ### Commands whose buffers do not clash commute -/

/-- The schedules of an expanded key have all the words that ENCRYPT and DECRYPT read (R35, R36). -/
theorem KeyState.Expanded.hasWords_W {k : KeyState} (h : k.Expanded) : hasWords k.variant k.W = true := by
  obtain ⟨key, hk⟩ := h
  rw [hk]
  exact hasWords_expandKey_W _ key

theorem KeyState.Expanded.hasWords_Winv {k : KeyState} (h : k.Expanded) : hasWords k.variant k.Winv = true := by
  obtain ⟨key, hk⟩ := h
  rw [hk]
  exact hasWords_expandKey_Winv _ key

/-- Every command completes on an instance that exists and meets the invariant (R296). -/
theorem exec_completes (i : Instr) {s : State} (hes : ∀ e ∈ s.engines, e.Inv) (htarget : s.target < s.engines.length) :
    ∃ t, exec i s = .next t := by
  have he : s.engine? = some s.engines[s.target] := List.getElem?_eq_getElem htarget
  have hinv : Engine.Inv s.engines[s.target] := hes _ (List.getElem_mem htarget)
  have hsome : s.engine? ≠ none := by simp [he]
  cases i with
  | setkey klen keyAddr =>
    obtain ⟨hnone, -⟩ | ⟨e, -, ⟨-, h⟩ | ⟨v, -, ⟨-, h⟩ | ⟨key, -, h⟩⟩⟩ := execSetkey_cases klen keyAddr s
    · exact absurd hnone hsome
    · exact ⟨_, h⟩
    · exact ⟨_, h⟩
    · exact ⟨_, h⟩
  | encrypt a b => exact runCipher_completes (fun _ => KeyState.Expanded.hasWords_W) he hinv
  | decrypt a b => exact runCipher_completes (fun _ => KeyState.Expanded.hasWords_Winv) he hinv
  | keylen =>
    obtain ⟨hnone, -⟩ | ⟨e, -, ⟨-, h⟩ | ⟨k, -, h⟩⟩ := execKeylen_cases s
    · exact absurd hnone hsome
    · exact ⟨_, h⟩
    · exact ⟨_, h⟩
  | blklen =>
    obtain ⟨hnone, -⟩ | ⟨e, -, h⟩ := execBlklen_cases s
    · exact absurd hnone hsome
    · exact ⟨_, h⟩

/-- A command other than SETKEY leaves every instance its key (R207, R222). -/
theorem exec_map_key {i : Instr} {s t : State} (hi : Instr.isSetkey i = false) (h : exec i s = .next t) :
    t.engines.map Engine.key = s.engines.map Engine.key := by
  obtain ⟨⟨hlen, -⟩, -, hkey, -⟩ := constCommandsKeepKeys i s t hi h
  refine List.ext_getElem (by simpa using hlen) fun n hn hn' => ?_
  rw [List.length_map] at hn
  obtain ⟨e, he, hk, -, -⟩ := hkey n _ (List.getElem?_eq_getElem hn)
  obtain ⟨_, rfl⟩ := List.getElem?_eq_some_iff.1 he
  simpa using hk

/-- The key of the instance selected for a command. -/
theorem State.key?_select (s : State) (inst : Nat) (d : Bool) :
    (s.select inst d).key? = ((s.engines.map Engine.key)[inst]?).join := by
  rw [List.getElem?_map]
  show (s.engines[inst]?).bind Engine.key = _
  cases s.engines[inst]? <;> rfl

/-- The state after a command other than SETKEY agrees with the state before it on the octets that the command does not
write, for any command issued next. -/
theorem agreesOn_after_exec {j : Instr} {s u : State} {m n : Nat} (hj : Instr.isSetkey j = false)
    (hu : exec j (s.select n false) = .next u) :
    (s.select m false).AgreesOn (fun a => ¬ Instr.WritesAt j a) (u.select m false) where
  params := (exec_sameSurroundings hu).params
  prot := (exec_sameSurroundings hu).prot
  key := by rw [State.key?_select, State.key?_select, exec_map_key hj hu]; rfl
  undisturbed := rfl
  undisturbed' := rfl
  mem := fun _ ha => (exec_get?_of_not_writesAt hu ha :)

/-- Outside what `j` writes, `i` leaves after `j` what it leaves without it, when the two do not clash (R81). -/
theorem exec_get?_after {i j : Instr} {s t u u' : State} {m n a : Nat} (hj : Instr.isSetkey j = false)
    (hclash : ¬ Instr.Clash i j) (ht : exec i (s.select m false) = .next t) (hu : exec j (s.select n false) = .next u)
    (hu' : exec i (u.select m false) = .next u') (ha : ¬ Instr.WritesAt j a) :
    Memory.get? u'.mem a = Memory.get? t.mem a :=
  (agreesOn_after_exec hj hu).exec_get? (fun x hx hw => hclash ⟨x, .inr ⟨hw, hx⟩⟩) ht hu' ha

theorem Instr.Clash.symm {i j : Instr} (h : Instr.Clash i j) : Instr.Clash j i := h.imp fun _ => Or.symm

/-- Two commands in turn, on instances that exist, complete in a state that meets the invariant. -/
theorem exec_completes_twice {s : State} (hs : s.Inv) {m n : Nat} (hm : m < s.engines.length)
    (hn : n < s.engines.length) (i j : Instr) :
    ∃ t t', exec i (s.select m false) = .next t ∧ exec j (t.select n false) = .next t' ∧ t'.Inv := by
  obtain ⟨t, ht⟩ := exec_completes i (hs.select m false).engines hm
  have htInv : t.Inv := exec_keepsInv (hs.select m false) ht
  have htLen : t.engines.length = s.engines.length := (exec_otherEnginesSame ht).1
  obtain ⟨t', ht'⟩ := exec_completes j (htInv.select n false).engines (htLen ▸ hn)
  exact ⟨t, t', ht, ht', exec_keepsInv (htInv.select n false) ht'⟩

/-- Settles O51: no command writes an octet that the other touches, so each leaves what it leaves when run alone, and
the two memories, in canonical form, read alike. -/
theorem concurrentCiphersCommute : Obligations.ConcurrentCiphersCommute := by
  intro s m n i j hs hm hn hi hj hclash
  obtain ⟨t, t', ht, ht', htInv⟩ := exec_completes_twice hs hm hn i j
  obtain ⟨u, u', hu, hu', huInv⟩ := exec_completes_twice hs hn hm j i
  refine ⟨t, t', u, u', ht, ht', hu, hu', Memory.ext_of_wf htInv.mem_wf huInv.mem_wf fun a => ?_, ?_⟩
  · by_cases hja : Instr.WritesAt j a
    · have hia : ¬ Instr.WritesAt i a := fun hia => hclash ⟨a, .inl ⟨hia, .inr hja⟩⟩
      calc Memory.get? t'.mem a
          = Memory.get? u.mem a := exec_get?_after hi (fun h => hclash h.symm) hu ht ht' hia
        _ = Memory.get? u'.mem a := ((exec_get?_of_not_writesAt hu' hia).symm :)
    · calc Memory.get? t'.mem a
          = Memory.get? t.mem a := (exec_get?_of_not_writesAt ht' hja :)
        _ = Memory.get? u'.mem a := (exec_get?_after hj hclash ht hu hu' hja).symm
  · calc t'.engines.map Engine.key
        = t.engines.map Engine.key := (exec_map_key hj ht' :)
      _ = s.engines.map Engine.key := (exec_map_key hi ht :)
      _ = u.engines.map Engine.key := ((exec_map_key hj hu).symm :)
      _ = u'.engines.map Engine.key := ((exec_map_key hi hu').symm :)

end Sys2Proof.Machine

/-! What the encoding family adds: the decoder and the encoder undo each other, the opcode map says what decodes, and
each command gives one response, of a kind it may give. -/

namespace Sys2Proof.Machine

/-! ### Decoder and encoder -/

/-- The decoder undoes the encoder, at every operand (R97, R101). -/
theorem decode_encode (i : Instr) : decode (encode i) = .ok i := by
  cases i with
  | setkey klen keyAddr => exact decode_setkeyWord klen keyAddr 0
  | encrypt inAddr outAddr => exact decode_encryptWord inAddr outAddr
  | decrypt inAddr outAddr => exact decode_decryptWord inAddr outAddr
  | keylen => exact decode_keylenWord 0 0
  | blklen => exact decode_blklenWord 0 0

/-- An operand sent as 0 fits in every address space. -/
theorem addrFits_zero (p : Params) : addrFits p 0 = true := decide_eq_true p.addrW.two_pow_pos

/-- The port can carry what a well-formed command encodes to (R91). -/
theorem wf_encode {p : Params} {i : Instr} (h : i.wf p = true) : (encode i).wf p = true := by
  cases i with
  | setkey klen keyAddr => exact Bool.and_eq_true_iff.mpr ⟨h, addrFits_zero p⟩
  | encrypt inAddr outAddr => exact h
  | decrypt inAddr outAddr => exact h
  | keylen => exact Bool.and_eq_true_iff.mpr ⟨addrFits_zero p, addrFits_zero p⟩
  | blklen => exact Bool.and_eq_true_iff.mpr ⟨addrFits_zero p, addrFits_zero p⟩

/-- Settles O1: the decoder undoes the encoder for every command; well-formedness is needed for the record alone. -/
theorem decodeOfEncode : Obligations.DecodeOfEncode := fun _ i h => ⟨decode_encode i, wf_encode h⟩

/-- What a record holds that decodes: the word of its command, and the operands the format has (R97, R101). -/
theorem decode_ok_cases {c : Command} {i : Instr} (h : decode c = .ok i) :
    (∃ klen, c.cw = setkeyWord klen ∧ i = .setkey klen c.op0) ∨
    (c.cw = 0x20000000 ∧ i = .encrypt c.op0 c.op1) ∨
    (c.cw = 0x30000000 ∧ i = .decrypt c.op0 c.op1) ∨
    (c.cw = 0x40000000 ∧ i = .keylen) ∨
    (c.cw = 0x50000000 ∧ i = .blklen) := by
  simpa [h] using decode_cases c

/-- The encoder writes back the word that decoded (R91). -/
theorem encode_cw_of_decode {c : Command} {i : Instr} (h : decode c = .ok i) : (encode i).cw = c.cw := by
  obtain ⟨klen, hcw, rfl⟩ | ⟨hcw, rfl⟩ | ⟨hcw, rfl⟩ | ⟨hcw, rfl⟩ | ⟨hcw, rfl⟩ := decode_ok_cases h <;> exact hcw.symm

/-- Settles O2: each word that decodes is written back, and its operands are read where the format has them. -/
theorem encodeOfDecode : Obligations.EncodeOfDecode := by
  intro c i h
  refine ⟨encode_cw_of_decode h, ?_, ?_⟩
  · rintro klen a rfl
    obtain ⟨hcw, ha⟩ : c.cw = setkeyWord klen ∧ a = c.op0 := by simpa using decode_ok_cases h
    exact ⟨by rw [hcw, setkeyWord_klen], ha⟩
  · rintro a b (rfl | rfl)
    · exact And.right (a := c.cw = 0x20000000) (by simpa using decode_ok_cases h)
    · exact And.right (a := c.cw = 0x30000000) (by simpa using decode_ok_cases h)

/-! ### The opcode map -/

/-- The mask of the SETKEY row clears the `klen` field and keeps the rest (R97). -/
theorem setkeyWord_and_mask (klen : BitVec 8) : setkeyWord klen &&& 0xFFFFFF00 = 0x10000000 := by
  ext i hi; interval_cases i <;> simp

/-- The words the SETKEY row selects are the SETKEY words (R97). -/
theorem exists_eq_setkeyWord {cw : BitVec 32} (h : cw &&& 0xFFFFFF00 = 0x10000000) : ∃ klen, cw = setkeyWord klen := by
  have kept (k n : Nat) (hmask : (0xFFFFFF00 : BitVec 32).extractLsb' k n = BitVec.allOnes n) :
      cw.extractLsb' k n = (0x10000000 : BitVec 32).extractLsb' k n := by
    rw [← h, BitVec.extractLsb'_and, hmask, BitVec.and_allOnes]
  exact ⟨_, eq_setkeyWord (kept 28 4 (by decide)) (kept 8 20 (by decide))⟩

/-- The mask of every other row keeps the whole word (R97). -/
theorem and_fullMask (cw : BitVec 32) : cw &&& 0xFFFFFFFF = cw := BitVec.and_allOnes

/-- A word with another opcode than SETKEY's is no SETKEY word. -/
theorem setkeyWord_ne {w : BitVec 32} (hw : w.extractLsb' 28 4 ≠ 1) (klen : BitVec 8) : setkeyWord klen ≠ w := by
  rintro rfl
  exact hw (setkeyWord_opcode klen)

/-- A row of the opcode map selects the word of a command exactly when it is that command's row (R97). -/
theorem selects_encode {r : OpcodeRow} (hr : r ∈ opcodeMap) (i : Instr) :
    r.selects (encode i).cw = true ↔ r.mnemonic = i.mnemonic := by
  cases i with
  | setkey klen keyAddr =>
    change r.selects (setkeyWord klen) = true ↔ r.mnemonic = "SETKEY"
    have other {w : BitVec 32} (hw : w.extractLsb' 28 4 ≠ 1) : ¬ (setkeyWord klen &&& 0xFFFFFFFF == w) = true := by
      rw [beq_iff_eq, and_fullMask]
      exact setkeyWord_ne hw klen
    fin_cases hr
    · exact iff_of_true (beq_iff_eq.mpr (setkeyWord_and_mask klen)) rfl
    all_goals exact iff_of_false (other (by decide)) (by decide)
  | encrypt inAddr outAddr =>
    change r.selects 0x20000000 = true ↔ r.mnemonic = "ENCRYPT"
    revert r; decide
  | decrypt inAddr outAddr =>
    change r.selects 0x30000000 = true ↔ r.mnemonic = "DECRYPT"
    revert r; decide
  | keylen => revert r; decide
  | blklen => revert r; decide

/-- A word that a row of the opcode map selects decodes (R97, R99). -/
theorem exists_decode_of_selects {r : OpcodeRow} (hr : r ∈ opcodeMap) {c : Command} (h : r.selects c.cw = true) :
    ∃ i, decode c = .ok i := by
  obtain ⟨cw, a, b⟩ := c
  have word {w : BitVec 32} (hw : (cw &&& 0xFFFFFFFF == w) = true) : cw = w := by
    rwa [beq_iff_eq, and_fullMask] at hw
  fin_cases hr
  · obtain ⟨klen, rfl⟩ := exists_eq_setkeyWord (beq_iff_eq.mp h)
    exact ⟨_, decode_setkeyWord klen a b⟩
  · exact word h ▸ ⟨_, decode_encryptWord a b⟩
  · exact word h ▸ ⟨_, decode_decryptWord a b⟩
  · exact word h ▸ ⟨_, decode_keylenWord a b⟩
  · exact word h ▸ ⟨_, decode_blklenWord a b⟩

/-- Every command has a row in the opcode map (R90, R97). -/
theorem exists_row (i : Instr) : ∃ r ∈ opcodeMap, r.mnemonic = i.mnemonic := by
  cases i <;> simp [opcodeMap, Instr.mnemonic]

/-- Settles O3: the rows select what the encoder writes, every row's words decode, and every command has its row. -/
theorem decodeFollowsOpcodeMap : Obligations.DecodeFollowsOpcodeMap := by
  intro c
  refine ⟨fun i h r hr => encode_cw_of_decode h ▸ selects_encode hr i, fun ⟨err, herr⟩ r hr => ?_, fun hnone => ?_⟩
  · rw [← Bool.not_eq_true]
    intro hsel
    obtain ⟨i, hi⟩ := exists_decode_of_selects hr hsel
    cases herr.symm.trans hi
  · rcases hdec : decode c with err | i
    · exact ⟨err, rfl⟩
    · obtain ⟨r, hr, hrow⟩ := exists_row i
      have hsel : r.selects c.cw = true := encode_cw_of_decode hdec ▸ (selects_encode hr i).mpr hrow
      cases (hnone r hr).symm.trans hsel

/-- Settles O4: the word of each row decodes whatever the operands, and SETKEY's with every `klen`. -/
theorem absentOperandsIgnored : Obligations.AbsentOperandsIgnored := fun klen a b =>
  ⟨decode_setkeyWord klen a b, decode_encryptWord a b, decode_decryptWord a b, decode_keylenWord a b,
    decode_blklenWord a b⟩

/-- Settles O5: each word is evaluated by the decoder. -/
theorem decodeOfWrittenWords : Obligations.DecodeOfWrittenWords := by
  unfold Obligations.DecodeOfWrittenWords
  decide

/-! ### The word placed for fetching -/

/-- What is read from an instruction's bits is what the record made of them decodes to. -/
theorem decode_of_decodeTableWord {nbits w : Nat} {i : Instr} (h : decodeTableWord nbits w = some i) :
    decode (commandOfBits nbits w) = .ok i := by
  unfold decodeTableWord at h
  split at h
  next j hj => cases h; exact hj
  next => cases h

/-- A command placed as the next action runs with nothing in flight beside it, undisturbed (R10, R80). -/
theorem step_withCommand {s : State} {c : Command} {i : Instr} (htarget : s.target < s.engines.length)
    (hdec : decode c = .ok i) :
    step (s.withCommand c) = exec i { s with inFlight := [], disturbed := false } :=
  calc step (s.withCommand c) = runCommand s.target c { s with inFlight := [] } :=
      step_of_queue_cons (s := s.withCommand c) rfl
    _ = _ := runCommand_of_mayJoin (s := { s with inFlight := [] }) htarget hdec nofun

/-- Settles O8: the bits are placed as the command they make, which runs alone. -/
theorem stepRunsFetchedWord : Obligations.StepRunsFetchedWord := fun _ _ _ _ htarget h =>
  step_withCommand htarget (decode_of_decodeTableWord h)

/-! ### Responses -/

/-- Settles O40: each way a command can end gives one response, and the command is one that may give it. -/
theorem oneResponseOfItsOwnKind : Obligations.OneResponseOfItsOwnKind := by
  intro i s t h
  obtain ⟨e, -, ⟨hblk, hset, -, rfl⟩ | ⟨a, b, k, hi, -, -, rfl⟩ |
    ⟨klen, a, rfl, ⟨-, rfl⟩ | ⟨v, -, ⟨-, rfl⟩ | ⟨key, -, rfl⟩⟩⟩ |
    ⟨a, b, k, block, -, -, -, ⟨rfl, -, rfl⟩ | ⟨rfl, -, rfl⟩⟩ | ⟨k, rfl, -, rfl⟩ | ⟨rfl, rfl⟩⟩ := exec_next_cases h
  · exact ⟨.notKeyed, 0, rfl, fun _ => rfl, nofun, fun _ => ⟨hset, hblk⟩, nofun, nofun, nofun⟩
  · have hquery : i ≠ .keylen ∧ i ≠ .blklen := by rcases hi with rfl | rfl <;> exact ⟨nofun, nofun⟩
    exact ⟨.bufferFault, 0, rfl, fun _ => rfl, nofun, nofun, fun _ => hquery, nofun, nofun⟩
  · exact ⟨.invalidKeyLength, 0, rfl, fun _ => rfl, fun _ => rfl, nofun, nofun, nofun, nofun⟩
  · exact ⟨.bufferFault, 0, rfl, fun _ => rfl, nofun, nofun, fun _ => ⟨nofun, nofun⟩, nofun, nofun⟩
  · exact ⟨.ok, 0, rfl, fun _ => rfl, nofun, nofun, nofun, nofun, nofun⟩
  · exact ⟨.ok, 0, rfl, fun _ => rfl, nofun, nofun, nofun, nofun, nofun⟩
  · exact ⟨.ok, 0, rfl, fun _ => rfl, nofun, nofun, nofun, nofun, nofun⟩
  · exact ⟨.ok, _, rfl, fun ⟨hne, _⟩ => absurd rfl hne, nofun, nofun, nofun, nofun, nofun⟩
  · exact ⟨.ok, _, rfl, fun ⟨_, hne⟩ => absurd rfl hne, nofun, nofun, nofun, nofun, nofun⟩

/-- The codes 6 to 15 are no status's (R96). -/
theorem Status.code_le_five (st : Status) : st.code.toNat ≤ 5 := by
  cases st <;> decide

/-- Settles O41: each code is that of the status's own constructor. -/
theorem statusCodesDistinct : Obligations.StatusCodesDistinct :=
  ⟨rfl, rfl, rfl, rfl, rfl, rfl, Status.code_le_five⟩

end Sys2Proof.Machine

/-! What the table family adds: `Rcon` holds the powers of x, `S` is the affine map of the field's inverse, and `S` and
`Si` undo each other and move every byte (spec/40_sbox_rcon.md). -/

namespace Sys2Proof.Machine

/-! ### Rcon -/

/-- The listing of R131 is the list of the powers of x, each in the high byte of a word (R130). -/
theorem rconListing_eq_map : rconListing = (List.range 10).map fun k => mkWord (xtimePow k 1) 0 0 0 := by decide

/-- `Rcon[j]` is the power of x with exponent `j - 1` in the high byte, with zero elsewhere (R130). -/
theorem rcon_eq (j : RconIndex) : rcon j = mkWord (xtimePow (j.val - 1) 1) 0 0 0 := by
  simp [rcon, rconListing_eq_map]

/-- A byte shifted to the top of a word is the word with that high byte and zero elsewhere. -/
theorem setWidth_shiftLeft_eq_mkWord (b : Byte) : b.setWidth 32 <<< 24 = mkWord b 0 0 0 := by
  simp [mkWord]

/-- Bits 23 to 0 of a word whose three low bytes are zero. -/
theorem extractLsb'_mkWord_zero (b : Byte) : (mkWord b 0 0 0).extractLsb' 0 24 = 0 := by
  rw [← setWidth_shiftLeft_eq_mkWord]
  ext i hi
  simp [hi]

/-- The next entry of `Rcon` is the product of this one's byte by x (R130). -/
theorem rcon_succ {q r : RconIndex} (h : q.val = r.val + 1) :
    rcon q = (xtime (byte3 (rcon r))).setWidth 32 <<< 24 := by
  have hexp : q.val - 1 = r.val - 1 + 1 := by have := r.property; omega
  rw [rcon_eq q, rcon_eq r, byte3_mkWord, setWidth_shiftLeft_eq_mkWord, hexp, xtimePow]

/-- Settles O18: the entries are the powers of x, and the expansion reads within the index type. -/
theorem rconPowersOfX : Obligations.RconPowersOfX := by
  refine ⟨fun j => ⟨?_, fun h => ⟨⟨j, h⟩, rfl⟩⟩, fun r => ⟨fun h => ?_, ?_, fun q h => rcon_succ h⟩,
    fun v i hlow hhigh _ => rconIndex_bounds ⟨hlow, hhigh⟩⟩
  · rintro ⟨r, rfl⟩
    exact r.property
  · rw [rcon_eq, h]
    rfl
  · rw [rcon_eq]
    exact extractLsb'_mkWord_zero _

/-! ### The S-box as the affine map of the inverse -/

/-- The inverse of the affine map of R122: `rotl8(y,1) ^ rotl8(y,3) ^ rotl8(y,6) ^ 0x05`. -/
def invAffine (y : Byte) : Byte := y.rotateLeft 1 ^^^ y.rotateLeft 3 ^^^ y.rotateLeft 6 ^^^ 0x05

/-- The affine map undoes `invAffine`. -/
theorem affine_invAffine : ∀ y : Byte, affine (invAffine y) = y := by decide

/-- The byte whose affine image is `S[x]` is the inverse of `x` in the field (R121, R122), by the listing of R123. -/
theorem gmul_invAffine_sbox : ∀ x : Byte, x ≠ 0 → gmul x (invAffine (sbox x)) = 1 := by decide

/-- Settles O53: the affine map, undone on the entry, gives the inverse. -/
theorem sboxAffineOfInverse : Obligations.SboxAffineOfInverse := by
  refine fun x => ⟨invAffine (sbox x), ?_, (affine_invAffine (sbox x)).symm⟩
  by_cases hx : x = 0
  · subst hx
    exact Or.inl ⟨rfl, rfl⟩
  · exact Or.inr (gmul_invAffine_sbox x hx)

/-! ### The S-box and its inverse -/

/-- `S` has no fixed point (R126). -/
theorem sbox_ne_self : ∀ x : Byte, sbox x ≠ x := by decide

/-- `S` has no opposite fixed point (R126). -/
theorem sbox_ne_complement : ∀ x : Byte, sbox x ≠ x ^^^ 0xff := by decide

/-- `Si` has no fixed point (R126): it would be one of `S`. -/
theorem invSbox_ne_self (y : Byte) : invSbox y ≠ y := fun h =>
  sbox_ne_self y (calc
    sbox y = sbox (invSbox y) := by rw [h]
    _ = y := sbox_invSbox y)

/-- `Si` has no opposite fixed point (R126): the complement of one would be one of `S`. -/
theorem invSbox_ne_complement (y : Byte) : invSbox y ≠ y ^^^ 0xff := fun h =>
  sbox_ne_complement (y ^^^ 0xff) (calc
    sbox (y ^^^ 0xff) = sbox (invSbox y) := by rw [h]
    _ = y := sbox_invSbox y
    _ = y ^^^ 0xff ^^^ 0xff := by rw [BitVec.xor_assoc, BitVec.xor_self, BitVec.xor_zero])

/-- Settles O54: each table undoes the other, and `Si` takes over from `S` that no byte keeps its place or goes to its
complement. -/
theorem inverseSboxInverts : Obligations.InverseSboxInverts := fun x =>
  ⟨invSbox_sbox x, sbox_invSbox x, sbox_ne_self x, invSbox_ne_self x, sbox_ne_complement x, invSbox_ne_complement x⟩

end Sys2Proof.Machine

/-! What the T-table family adds: multiplication in the field is linear in its first factor, so the products that R140
and R142 name are sums of `xtime` of the second, and the T-tables and FastInvMixColumn are written in them
(spec/41_ttables.md). -/

namespace Sys2Proof.Machine

/-! ### Products by a constant -/

/-- Multiplication by a power of x is linear (R120). -/
theorem xtimePow_xor (i : Nat) (a b : Byte) : xtimePow i (a ^^^ b) = xtimePow i a ^^^ xtimePow i b := by
  induction i with
  | zero => rfl
  | succ i ih => simp only [xtimePow, ih, xtime_xor]

/-- Multiplication by x commutes with multiplication by its powers. -/
theorem xtimePow_xtime (i : Nat) (a : Byte) : xtimePow i (xtime a) = xtime (xtimePow i a) := by
  induction i with
  | zero => rfl
  | succ i ih => simp only [xtimePow, ih]

/-- What one bit of the second factor contributes is linear in the first. -/
theorem gmulTerm_xor (a b x : Byte) (i : Nat) : gmulTerm (a ^^^ b) x i = gmulTerm a x i ^^^ gmulTerm b x i := by
  unfold gmulTerm
  split
  · exact xtimePow_xor i a b
  · rfl

/-- What one bit of the second factor contributes is multiplied by x with the first. -/
theorem gmulTerm_xtime (a x : Byte) (i : Nat) : gmulTerm (xtime a) x i = xtime (gmulTerm a x i) := by
  unfold gmulTerm
  split
  · exact xtimePow_xtime i a
  · rfl

/-- The product is additive in the first factor (R120). -/
theorem gmul_xor_left (a b x : Byte) : gmul (a ^^^ b) x = gmul a x ^^^ gmul b x := by
  simp only [gmul, gmulTerm_xor]
  ac_rfl

/-- A factor x of the first factor is a factor of the product (R120). -/
theorem gmul_xtime_left (a x : Byte) : gmul (xtime a) x = xtime (gmul a x) := by
  simp only [gmul, gmulTerm_xtime, xtime_xor]

/-- 1 is the unit of the product (R120). -/
theorem gmul_one_left : ∀ x : Byte, gmul 1 x = x := by decide

/-- `02•x` and `03•x` (R140): the first factor is x, and x + 1. -/
theorem gmul_two (x : Byte) : gmul 2 x = xtime x := by
  rw [show (2 : Byte) = xtime 1 from rfl, gmul_xtime_left, gmul_one_left]
theorem gmul_three (x : Byte) : gmul 3 x = xtime x ^^^ x := by
  rw [show (3 : Byte) = 2 ^^^ 1 from rfl, gmul_xor_left, gmul_two, gmul_one_left]

/-- `0e•x`, `09•x`, `0d•x`, `0b•x` (R142): each first factor is the same sum of powers of x, at 1. -/
theorem gmul_fourteen (x : Byte) : gmul 14 x = mul14 x := by
  rw [show (14 : Byte) = mul14 1 from rfl]
  simp only [mul14, gmul_xor_left, gmul_xtime_left, gmul_one_left]
theorem gmul_nine (x : Byte) : gmul 9 x = mul9 x := by
  rw [show (9 : Byte) = mul9 1 from rfl]
  simp only [mul9, gmul_xor_left, gmul_xtime_left, gmul_one_left]
theorem gmul_thirteen (x : Byte) : gmul 13 x = mul13 x := by
  rw [show (13 : Byte) = mul13 1 from rfl]
  simp only [mul13, gmul_xor_left, gmul_xtime_left, gmul_one_left]
theorem gmul_eleven (x : Byte) : gmul 11 x = mul11 x := by
  rw [show (11 : Byte) = mul11 1 from rfl]
  simp only [mul11, gmul_xor_left, gmul_xtime_left, gmul_one_left]

/-! ### FastInvMixColumn -/

/-- Settles O56: the coefficients of FastInvMixColumn are the products by 0e, 0b, 0d and 09, each linear. -/
theorem fastInvMixColumnTransforms : Obligations.FastInvMixColumnTransforms := by
  refine ⟨fun w => ?_, fastInvMixColumn_xor⟩
  simp only [gmul_fourteen, gmul_eleven, gmul_thirteen, gmul_nine]
  exact fastInvMixColumn_eq w

/-! ### The T-tables -/

/-- The first encryption table in the products of R140. -/
theorem enc0_eq_gmul (b : Byte) : enc0 b = mkWord (gmul 2 (sbox b)) (sbox b) (sbox b) (gmul 3 (sbox b)) := by
  rw [gmul_two, gmul_three, enc0]

/-- The first decryption table in the products of R142: `b` is the `S` of its own `Si`. -/
theorem dec0_eq_gmul (b : Byte) :
    dec0 b = mkWord (gmul 14 (invSbox b)) (gmul 9 (invSbox b)) (gmul 13 (invSbox b)) (gmul 11 (invSbox b)) := by
  rw [gmul_fourteen, gmul_nine, gmul_thirteen, gmul_eleven, ← dec0_sbox, sbox_invSbox]

/-- Settles O55: the other tables are the first ones rotated right, byte by byte (R141, R143). -/
theorem tTableEntries : Obligations.TTableEntries := by
  refine fun b => ⟨enc0_eq_gmul b, ?_, ?_, ?_, dec0_eq_gmul b, ?_, ?_, ?_, rfl, rfl, rfl, rfl, rfl, rfl⟩
  · rw [enc1, enc0_eq_gmul, rotateRight_mkWord]
  · rw [enc2, enc0_eq_gmul, rotateRight_mkWord_two]
  · rw [enc3, enc0_eq_gmul, rotateRight_mkWord_three]
  · rw [dec1, dec0_eq_gmul, rotateRight_mkWord]
  · rw [dec2, dec0_eq_gmul, rotateRight_mkWord_two]
  · rw [dec3, dec0_eq_gmul, rotateRight_mkWord_three]

end Sys2Proof.Machine

/-! What the primitive family adds: the word operations on the four bytes of a word, and the round primitives on the
bytes `st[ro][c]` of the state (spec/42_primitive_ops.md). -/

namespace Sys2Proof.Machine

/-! ### RotWord and SubWord -/

/-- SubWord on the bytes of a word (R163). -/
theorem subWord_mkWord (a b c d : Byte) :
    subWord (mkWord a b c d) = mkWord (sbox a) (sbox b) (sbox c) (sbox d) := by
  rw [subWord, byte3_mkWord, byte2_mkWord, byte1_mkWord, byte0_mkWord]

/-- A substitution of each byte by itself does not see where the byte stands (R162, R163). -/
theorem subWord_rotWord (w : Word) : subWord (rotWord w) = rotWord (subWord w) := by
  rw [← mkWord_bytes w, rotWord_mkWord, subWord_mkWord, subWord_mkWord, rotWord_mkWord]

/-- Four rotations bring each byte back to its place (R162). -/
theorem rotWord_four (w : Word) : rotWord (rotWord (rotWord (rotWord w))) = w := by
  rw [← mkWord_bytes w, rotWord_mkWord, rotWord_mkWord, rotWord_mkWord, rotWord_mkWord]

/-- Settles O60: each operation is known on the four bytes of a word, and every word is its four bytes. -/
theorem rotWordAndSubWord : Obligations.RotWordAndSubWord :=
  ⟨fun a b c d => ⟨rotWord_mkWord a b c d, subWord_mkWord a b c d⟩, fun w => ⟨subWord_rotWord w, rotWord_four w⟩⟩

/-! ### The rows of the shifted state -/

/-- Row `ro` of the column that SubBytesShiftRows makes: `S[st[ro][c + ro]]` (R168, R171). -/
def encRowByte (s : Columns) (c ro : Fin 4) : Byte := sbox (stateByte s ro (c + ro))

/-- Row `ro` of the column that InvSubBytesShiftRows makes: `Si[st[ro][c - ro]]` (R169, R171). -/
def decRowByte (s : Columns) (c ro : Fin 4) : Byte := invSbox (stateByte s ro (c - ro))

section rows
variable (s : Columns) (c : Fin 4)

theorem encRowByte_zero : encRowByte s c 0 = sbox (byte3 (s.get c)) := by rw [encRowByte, add_zero]; rfl
theorem encRowByte_one : encRowByte s c 1 = sbox (byte2 (s.get (c + 1))) := rfl
theorem encRowByte_two : encRowByte s c 2 = sbox (byte1 (s.get (c + 2))) := rfl
theorem encRowByte_three : encRowByte s c 3 = sbox (byte0 (s.get (c + 3))) := rfl

theorem decRowByte_zero : decRowByte s c 0 = invSbox (byte3 (s.get c)) := by rw [decRowByte, sub_zero]; rfl

/-- The model writes the column `c - ro` as `c + (4 - ro)`, both mod 4 (R167, R169, R171). -/
theorem decRowByte_one : decRowByte s c 1 = invSbox (byte2 (s.get (c + 3))) := by
  rw [decRowByte, show c - 1 = c + 3 by omega]; rfl
theorem decRowByte_two : decRowByte s c 2 = invSbox (byte1 (s.get (c + 2))) := by
  rw [decRowByte, show c - 2 = c + 2 by omega]; rfl
theorem decRowByte_three : decRowByte s c 3 = invSbox (byte0 (s.get (c + 1))) := by
  rw [decRowByte, show c - 3 = c + 1 by omega]; rfl

/-- SubBytesShiftRows by rows (R168). -/
theorem subBytesShiftRows_eq_rows :
    subBytesShiftRows c s = mkWord (encRowByte s c 0) (encRowByte s c 1) (encRowByte s c 2) (encRowByte s c 3) := by
  rw [encRowByte_zero, encRowByte_one, encRowByte_two, encRowByte_three, subBytesShiftRows]

/-- InvSubBytesShiftRows by rows (R169). -/
theorem invSubBytesShiftRows_eq_rows :
    invSubBytesShiftRows c s = mkWord (decRowByte s c 0) (decRowByte s c 1) (decRowByte s c 2) (decRowByte s c 3) := by
  rw [decRowByte_zero, decRowByte_one, decRowByte_two, decRowByte_three, invSubBytesShiftRows]

end rows

/-! ### The T-table sums -/

/-- The sum of the four encryption tables is the product of the substituted column with the MixColumns matrix: each
table is a column of the matrix times its own entry (R140, R141, R166). -/
theorem enc_xor_eq_mixColumn (w x y z : Byte) : enc0 w ^^^ enc1 x ^^^ enc2 y ^^^ enc3 z =
    mkWord (gmul 2 (sbox w) ^^^ gmul 3 (sbox x) ^^^ sbox y ^^^ sbox z)
      (sbox w ^^^ gmul 2 (sbox x) ^^^ gmul 3 (sbox y) ^^^ sbox z)
      (sbox w ^^^ sbox x ^^^ gmul 2 (sbox y) ^^^ gmul 3 (sbox z))
      (gmul 3 (sbox w) ^^^ sbox x ^^^ sbox y ^^^ gmul 2 (sbox z)) := by
  obtain ⟨h0, -⟩ := tTableEntries w
  obtain ⟨-, h1, -⟩ := tTableEntries x
  obtain ⟨-, -, h2, -⟩ := tTableEntries y
  obtain ⟨-, -, -, h3, -⟩ := tTableEntries z
  rw [h0, h1, h2, h3, mkWord_xor, mkWord_xor, mkWord_xor]

/-- The sum of the four decryption tables is FastInvMixColumn of the column of `Si` entries: FastInvMixColumn looks its
bytes up at their `S`, which undoes `Si` (R144, R167, R170). -/
theorem dec_xor_eq_fastInvMixColumn (w x y z : Byte) : dec0 w ^^^ dec1 x ^^^ dec2 y ^^^ dec3 z =
    fastInvMixColumn (mkWord (invSbox w) (invSbox x) (invSbox y) (invSbox z)) := by
  simp only [fastInvMixColumn, byte3_mkWord, byte2_mkWord, byte1_mkWord, byte0_mkWord, sbox_invSbox]

/-! ### The round primitives -/

/-- The Dec-table round primitive is the InvMixColumns transform of the final one (R167, R169). -/
theorem invMixColShiftRow_eq_fastInvMixColumn (c : Fin 4) (s : Columns) :
    invMixColShiftRow c s = fastInvMixColumn (invSubBytesShiftRows c s) :=
  dec_xor_eq_fastInvMixColumn ..

/-- Settles O57: the rows are those of the shifted state, and the Enc tables multiply them by the matrix. -/
theorem encryptRoundBytewise : Obligations.EncryptRoundBytewise := by
  refine fun s c => ⟨encRowByte s c, fun _ => rfl, subBytesShiftRows_eq_rows s c, ?_⟩
  rw [encRowByte_zero, encRowByte_one, encRowByte_two, encRowByte_three]
  exact enc_xor_eq_mixColumn ..

/-- Settles O58: the rows are those of the state shifted back, and the Dec tables transform their column. -/
theorem decryptRoundBytewise : Obligations.DecryptRoundBytewise := by
  refine fun s c => ⟨decRowByte s c, fun _ => rfl, invSubBytesShiftRows_eq_rows s c, ?_⟩
  rw [← invSubBytesShiftRows_eq_rows]
  exact invMixColShiftRow_eq_fastInvMixColumn c s

end Sys2Proof.Machine

/-! What the key schedule family adds: the word at each index of both schedules, and what SETKEY leaves when it commits
and when it fails (spec/43_key_schedule.md). -/

namespace Sys2Proof.Machine

/-! ### The forward schedule -/

/-- Inside a schedule, `schedWord` reads the word that stands there. -/
theorem getElem?_eq_some_schedWord {W : List Word} {i : Nat} (h : i < W.length) : W[i]? = some (schedWord W i) := by
  have hi : W[i]? = some W[i] := List.getElem?_eq_getElem h
  rw [schedWord_eq_of_getElem? hi, hi]

/-- Inside an expanded key, `schedWord` reads the word that stands there (R35). -/
theorem getElem?_expandKey_W {v : Variant} (key : Octets v.keyLength) {i : Nat} (h : i < 4 * (v.nr + 1)) :
    (expandKey v key).W[i]? = some (schedWord (expandKey v key).W i) :=
  getElem?_eq_some_schedWord (by rwa [length_expandKey_W])

/-- Each of the first `Nk` words is a word of the key (R183). -/
theorem getElem?_keyWords {v : Variant} (key : Octets v.keyLength) {i : Nat} (h : 4 * i + 3 < v.keyLength) :
    (keyWords v key)[i]? = some (loadWord key i h) := by
  have hi : i < v.nk := by rw [Variant.keyLength] at h; omega
  simp [keyWords, hi]

/-- Settles O16: the expansion leaves the words it starts from, which are those of the key. -/
theorem forwardScheduleStartsWithKey : Obligations.ForwardScheduleStartsWithKey := by
  intro v key i h
  have hi : i < (keyWords v key).length := by rw [length_keyWords]; rw [Variant.keyLength] at h; omega
  calc (expandKey v key).W[i]? = (keyWords v key)[i]? := getElem?_expandWords_old v _ _ (keyWords_bounds v key) hi
    _ = some (loadWord key i h) := getElem?_keyWords key h

section scheduleTemp
variable {v : Variant} {i : Nat} (h : v.nk ≤ i ∧ i < v.words) (temp : Word)

theorem scheduleTemp_of_mod_eq_zero (h0 : i % v.nk = 0) :
    scheduleTemp v i h temp = subWord (rotWord temp) ^^^ rcon (rconIndex v i h) := if_pos h0

theorem scheduleTemp_of_mod_eq_four (h4 : v.nk = 8 ∧ i % v.nk = 4) : scheduleTemp v i h temp = subWord temp := by
  have h0 : i % v.nk ≠ 0 := by omega
  rw [scheduleTemp, if_neg h0, if_pos h4]

theorem scheduleTemp_of_other (h0 : i % v.nk ≠ 0) (h4 : ¬ (v.nk = 8 ∧ i % v.nk = 4)) :
    scheduleTemp v i h temp = temp := by
  rw [scheduleTemp, if_neg h0, if_neg h4]

end scheduleTemp

/-- The recurrence of the forward schedule, read in the finished schedule (R184). -/
theorem schedWord_expandKey_W {v : Variant} (key : Octets v.keyLength) {i : Nat} (h : v.nk ≤ i ∧ i < v.words) :
    schedWord (expandKey v key).W i = schedWord (expandKey v key).W (i - v.nk) ^^^
      scheduleTemp v i h (schedWord (expandKey v key).W (i - 1)) := by
  have hlen := length_keyWords v key
  exact schedWord_expandWords v _ _ (keyWords_bounds v key) (by omega) (by omega)

/-- Settles O17: the recurrence of `schedWord_expandKey_W`, and the value of `temp` in each of its three branches. -/
theorem forwardScheduleRecurrence : Obligations.ForwardScheduleRecurrence := by
  intro v key i hnk hi
  have h : v.nk ≤ i ∧ i < v.words := ⟨hnk, hi⟩
  refine ⟨_, _, scheduleTemp v i h _, getElem?_expandKey_W key (by omega), getElem?_expandKey_W key (by omega), ?_,
    fun h0 => ⟨rconIndex v i h, rfl, scheduleTemp_of_mod_eq_zero h _ h0⟩, scheduleTemp_of_mod_eq_four h _,
    fun ⟨h0, h4⟩ => scheduleTemp_of_other h _ h0 h4⟩
  rw [getElem?_expandKey_W key hi, schedWord_expandKey_W key h]

/-! ### The inverse schedule -/

/-- Settles O19: the inverse schedule reads as the forward one in its outer rounds, and transformed between. -/
theorem inverseScheduleWords : Obligations.InverseScheduleWords := by
  intro v key i hi
  have hW : i < (forwardSchedule v key).length := by rwa [length_forwardSchedule]
  have hinv : (expandKey v key).Winv[i]? = some (schedWord (expandKey v key).Winv i) :=
    getElem?_eq_some_schedWord (by rwa [length_expandKey_Winv])
  refine ⟨schedWord (expandKey v key).W i, getElem?_expandKey_W key hi, fun houter => ?_, fun hinner => ?_⟩
  · rw [hinv, expandKey, schedWord_inverseSchedule_outer _ (houter.imp_left Nat.lt_succ_of_le)]
  · rw [hinv, expandKey, schedWord_inverseSchedule_inner (by omega) hW]

/-! ### SETKEY -/

section setkey
variable {s : State} {e : Engine} {klen : BitVec 8} {keyAddr : Nat}

/-- SETKEY of a legal length whose buffer can be read commits the expansion of what it read (R180, R187). -/
theorem execSetkey_of_key {v : Variant} {key : Octets v.keyLength} (he : s.engine? = some e)
    (hv : variantOfKeyLength klen = some v) (hkey : s.readBuffer keyAddr v.keyLength = some key) :
    execSetkey klen keyAddr s = .next (s.commitKey e (expandKey v key)) := by
  simp only [execSetkey, he, hv, hkey]

/-- SETKEY of any other length fails, whatever its buffer is (R181, R251). -/
theorem execSetkey_of_otherLength (he : s.engine? = some e) (hv : variantOfKeyLength klen = none) :
    execSetkey klen keyAddr s = .next (s.failSetkey e .invalidKeyLength) := by
  simp only [execSetkey, he, hv]

/-- A SETKEY that answers OK has read a key of a legal length and committed its expansion (R187, R189). -/
theorem exec_setkey_commit_of_ok {t : State} (h : exec (.setkey klen keyAddr) s = .next t) (hok : s.Answers t .ok 0) :
    ∃ e v key, variantOfKeyLength klen = some v ∧ s.readBuffer keyAddr v.keyLength = some key ∧
      s.engine? = some e ∧ t = s.commitKey e (expandKey v key) := by
  change execSetkey klen keyAddr s = _ at h
  have not_fail {e : Engine} {st : Status} (hst : st ≠ .ok) :
      execSetkey klen keyAddr s ≠ .next (s.failSetkey e st) := by
    intro h'
    cases h.symm.trans h'
    exact hst (hok.unique (st' := st) (v' := 0) rfl).1.symm
  obtain ⟨-, h'⟩ | ⟨e, he, ⟨-, h'⟩ | ⟨v, hv, ⟨-, h'⟩ | ⟨key, hkey, h'⟩⟩⟩ := execSetkey_cases klen keyAddr s
  · cases h.symm.trans h'
  · exact absurd h' (not_fail (by decide))
  · exact absurd h' (not_fail (by decide))
  · cases h.symm.trans h'
    exact ⟨e, v, key, hv, hkey, he, rfl⟩

/-- After a committed SETKEY the instance holds the key. -/
theorem State.engine?_commitKey (he : s.engine? = some e) (k : KeyState) :
    (s.commitKey e k).engine? = some (Engine.releaseTemp { e with key := some k } s.freeIdx) :=
  State.engine?_set he rfl rfl

/-- After a failed SETKEY the instance is treated as the policy says (R189). -/
theorem State.engine?_failSetkey (he : s.engine? = some e) (st : Status) :
    (s.failSetkey e st).engine? = some (e.afterFailedSetkey s.params.setkeyFailPolicy) :=
  State.engine?_set he rfl rfl

/-- An instance without a key is unchanged under either policy (R189). -/
theorem Engine.afterFailedSetkey_of_unkeyed (hkey : e.key = none) (p : FailPolicy) : e.afterFailedSetkey p = e := by
  cases p with
  | invalidate => rw [Engine.afterFailedSetkey, Engine.unkey, ← hkey]
  | preserve => rfl

/-- An unkeyed instance, and with it every other, is left as it was by a failed SETKEY (R189). -/
theorem State.failSetkey_engines_of_unkeyed (he : s.engine? = some e) (st : Status) (hkey : e.key = none) :
    (s.failSetkey e st).engines = s.engines := by
  rw [State.failSetkey_engines, Engine.afterFailedSetkey_of_unkeyed hkey, State.set_engine?_self he]

/-- Under the policy `invalidate` a failed SETKEY takes the key away (R189). -/
theorem State.engine?_failSetkey_of_invalidate (he : s.engine? = some e) (st : Status)
    (hp : s.params.setkeyFailPolicy = .invalidate) : (s.failSetkey e st).engine? = some { e with key := none } := by
  rw [State.engine?_failSetkey he, hp, Engine.afterFailedSetkey, Engine.unkey]

/-- Whatever SETKEY fails with, it answers that status and the value 0, and changes nothing but its instance, which it
treats as the policy says (R189, R251, R253). -/
theorem exec_setkey_failure {st : Status} (he : s.engine? = some e)
    (h : execSetkey klen keyAddr s = .next (s.failSetkey e st)) :
    ∃ t, exec (.setkey klen keyAddr) s = .next t ∧ s.Answers t st 0 ∧ t.mem = s.mem ∧
      s.OtherEnginesSame t ∧ s.SameSurroundings t ∧ (e.key = none → t.engines = s.engines) ∧
      (s.params.setkeyFailPolicy = .preserve → t.engines = s.engines) ∧
      (s.params.setkeyFailPolicy = .invalidate → t.engine? = some { e with key := none }) :=
  ⟨s.failSetkey e st, h, rfl, rfl, exec_otherEnginesSame (i := .setkey klen keyAddr) h,
    exec_sameSurroundings (i := .setkey klen keyAddr) h, State.failSetkey_engines_of_unkeyed he st,
    State.failSetkey_engines_of_preserve he st, State.engine?_failSetkey_of_invalidate he st⟩

/-- Reading a buffer does not depend on the instances. -/
theorem State.readBuffer_withEngines (es : List Engine) (a n : Nat) :
    State.readBuffer { s with engines := es } a n = s.readBuffer a n := rfl

end setkey

/-- Settles O13: the buffer reads as the octets it holds, and the commit replaces the key and `temp` of one instance. -/
theorem setkeyCommitsExpandedKey : Obligations.SetkeyCommitsExpandedKey := by
  intro s e klen keyAddr v key he hlen hd hkey
  have h : exec (.setkey klen keyAddr) s = .next (s.commitKey e (expandKey v key)) :=
    execSetkey_of_key he (variantOfKeyLength_of_toNat hlen) ((State.readBuffer_eq_some_iff_holds hd).2 hkey)
  exact ⟨_, _, h, State.engine?_commitKey he _, rfl, rfl, rfl, rfl, rfl, rfl, rfl, exec_otherEnginesSame h,
    exec_sameSurroundings h⟩

/-- Settles O14: no other length selects a variant, so SETKEY fails before it looks at its buffer. -/
theorem setkeyRejectsOtherLengths : Obligations.SetkeyRejectsOtherLengths := by
  intro s e klen keyAddr he h16 h24 h32
  have hv : variantOfKeyLength klen = none := by rw [variantOfKeyLength, if_neg h16, if_neg h24, if_neg h32]
  exact exec_setkey_failure he (execSetkey_of_otherLength he hv)

/-- Settles O15: one octet that may not be read makes the buffer unreadable. -/
theorem setkeyBufferFault : Obligations.SetkeyBufferFault := by
  intro s e klen keyAddr v j he hlen hj hread
  have hbuf : ¬ s.bufferReadable keyAddr v.keyLength := fun hr => by
    have hjr : s.readable (keyAddr + j) = true := hr ⟨j, hj⟩
    cases hread.symm.trans hjr
  exact exec_setkey_failure he (execSetkey_of_unreadable he hlen hbuf)

/-- Settles O21: the instances play no part in what SETKEY reads and expands, so it commits the same key to both. -/
theorem rekeyEqualsFreshConstruction : Obligations.RekeyEqualsFreshConstruction := by
  intro s t u klen keyAddr htarget ht hok hu
  obtain ⟨e, v, key, hv, hkey, he, rfl⟩ := exec_setkey_commit_of_ok ht hok
  rw [State.readBuffer_withEngines] at hkey
  have he' : s.engine? = some s.engines[s.target] := List.getElem?_eq_getElem htarget
  cases (show exec (.setkey klen keyAddr) s = _ from execSetkey_of_key he' hv hkey).symm.trans hu
  exact ⟨rfl, _, _, State.engine?_commitKey he _, State.engine?_commitKey he' _, rfl, rfl⟩

end Sys2Proof.Machine

/-! What the encryption family adds: ENCRYPT and DECRYPT of an expanded key are inverse bijections, the rounds of
ENCRYPT one by one, and what both commands leave on the machine with a key and without one (spec/44_encrypt.md). -/

namespace Sys2Proof.Machine

/-! ### Encryption and decryption of an expanded key are inverse bijections -/

/-- Settles O24: round by round, each step of DECRYPT takes away a step of ENCRYPT (`decryptColumns_encryptColumns`). -/
theorem decryptOfEncrypt : Obligations.DecryptOfEncrypt := decryptBlock_encryptBlock

section bijective
variable (v : Variant) (key : Octets v.keyLength)

/-- Encryption has a left inverse, so it is injective, and there are finitely many blocks. -/
theorem encryptBlock_bijective : Function.Bijective (encryptBlock (expandKey v key)) :=
  (Function.LeftInverse.injective (decryptBlock_encryptBlock v key)).bijective_of_finite

/-- The left inverse of a surjection is its right inverse too (R209). -/
theorem encryptBlock_decryptBlock :
    Function.RightInverse (decryptBlock (expandKey v key)) (encryptBlock (expandKey v key)) :=
  Function.LeftInverse.rightInverse_of_surjective (decryptBlock_encryptBlock v key) (encryptBlock_bijective v key).2

/-- Encryption is the inverse of decryption on both sides. -/
theorem decryptBlock_bijective : Function.Bijective (decryptBlock (expandKey v key)) :=
  Function.bijective_iff_has_inverse.2 ⟨_, encryptBlock_decryptBlock v key, decryptBlock_encryptBlock v key⟩

end bijective

/-- Settles O25: encryption is an injection of the finite set of blocks, so its left inverse is two-sided. -/
theorem encryptOfDecrypt : Obligations.EncryptOfDecrypt := fun v key =>
  ⟨encryptBlock_decryptBlock v key, encryptBlock_bijective v key, decryptBlock_bijective v key⟩

/-! ### The rounds of ENCRYPT -/

/-- A variant has rounds (R11). -/
theorem Variant.nr_pos (v : Variant) : 0 < v.nr := Nat.add_pos_right _ (by decide)

/-- The state of ENCRYPT after round `r`: the middle rounds done so far, and from round Nr on the final state (R203 to
R205). -/
def encryptState (k : KeyState) (block : Octets 16) (r : Nat) : Columns :=
  if r < k.variant.nr then encRounds k.W r (addRoundKeys k.W 0 (loadColumns block))
  else encryptColumns k (loadColumns block)

section encryptState
variable (k : KeyState) (block : Octets 16) (c : Fin 4)

theorem encryptState_of_lt {r : Nat} (h : r < k.variant.nr) :
    encryptState k block r = encRounds k.W r (addRoundKeys k.W 0 (loadColumns block)) := if_pos h

theorem encryptState_nr : encryptState k block k.variant.nr = encryptColumns k (loadColumns block) :=
  if_neg (Nat.lt_irrefl _)

/-- Round 0 adds the words 0 to 3 to the loaded block (R202, R203). -/
theorem encryptState_zero_get :
    (encryptState k block 0).get c = loadWord block c (by omega) ^^^ schedWord k.W c := by
  rw [encryptState_of_lt k block k.variant.nr_pos, encRounds, addRoundKeys, Columns.ofFn_get, addRoundKey,
    loadColumns_get, Nat.mul_zero, Nat.zero_add]

/-- A middle round takes each column from the state before it (R204). -/
theorem encryptState_succ_get {r : Nat} (h : r + 1 < k.variant.nr) : (encryptState k block (r + 1)).get c =
    mixColShiftRow c (encryptState k block r) ^^^ schedWord k.W (4 * (r + 1) + c) := by
  rw [encryptState_of_lt k block h, encryptState_of_lt k block (Nat.lt_of_succ_lt h), encRounds, encRound,
    Columns.ofFn_get]

/-- The final round takes each column from the state before it, with the S-box alone (R205). -/
theorem encryptState_nr_get : (encryptState k block k.variant.nr).get c =
    subBytesShiftRows c (encryptState k block (k.variant.nr - 1)) ^^^ schedWord k.W (4 * k.variant.nr + c) := by
  rw [encryptState_nr, encryptState_of_lt k block (Nat.sub_one_lt_of_lt k.variant.nr_pos), encryptColumns, encFinal,
    Columns.ofFn_get]

/-- Octet `4c + j` of the output is octet `j` of column `c` (R206). -/
theorem storeColumns_column (s : Columns) (j : Fin 4) :
    storeColumns s ⟨4 * c + j, by omega⟩ = wordOctet (s.get c) j := by
  have hcol : (4 * c.val + j.val) / 4 = c.val := by omega
  have hlane : (4 * c.val + j.val) % 4 = j.val := by omega
  simp only [storeColumns_apply, hcol, hlane]

end encryptState

/-- Settles O22: the states are those of `encryptState`, one lemma for each kind of round. -/
theorem encryptRounds : Obligations.EncryptRounds := by
  intro k block
  refine ⟨encryptState k block, encryptState_zero_get k block, fun r hpos hr c => ?_, encryptState_nr_get k block,
    fun c j => ?_⟩
  · obtain ⟨n, rfl⟩ := Nat.exists_eq_add_of_le' hpos
    have hn : n + 1 < k.variant.nr := Nat.lt_of_le_pred k.variant.nr_pos hr
    exact encryptState_succ_get k block c hn
  · rw [encryptState_nr, encryptBlock, storeColumns_column]

/-! ### ENCRYPT and DECRYPT on the machine -/

/-- A schedule of `4·(Nr+1)` words has all that a command reads (R35, R36). -/
theorem hasWords_of_le {v : Variant} {W : List Word} (h : 4 * (v.nr + 1) ≤ W.length) : hasWords v W = true :=
  decide_eq_true h

/-- What a command that commits a block leaves: the block at its address and every other octet as it was, its instance
with other working registers and nothing else, and the answer `(OK, 0)` (R206, R207, R222). -/
theorem exec_commitBlock_effect {i : Instr} {s : State} {e : Engine} {outAddr : Nat} {out : Octets 16}
    (he : s.engine? = some e) (h : exec i s = .next (s.commitBlock e outAddr out)) :
    ∃ t e', exec i s = .next t ∧ (∀ j : Fin 16, Memory.get? t.mem (outAddr + j) = some (out j)) ∧
      (∀ a, a < outAddr ∨ outAddr + 16 ≤ a → Memory.get? t.mem a = Memory.get? s.mem a) ∧
      t.engine? = some e' ∧ e'.key = e.key ∧ e'.backend = e.backend ∧ e'.temp = e.temp ∧ s.Answers t .ok 0 ∧
      s.OtherEnginesSame t ∧ s.SameSurroundings t := by
  refine ⟨_, e.releaseCipher s.freeIdx, h, State.get?_commitBlock_mem e outAddr out, fun a ha => ?_,
    State.engine?_set he rfl rfl, rfl, rfl, rfl, rfl, exec_otherEnginesSame h, exec_sameSurroundings h⟩
  rw [State.commitBlock_mem, Memory.get?_write_outside _ _ _ _ ha]

/-- Settles O27: all the checks of the one schedule that is read hold, so the command commits its result. -/
theorem cipherCompletes : Obligations.CipherCompletes := by
  intro s e k inAddr outAddr block he hk hd hin hout i result hi
  have hread : s.readBuffer inAddr 16 = some block := (State.readBuffer_eq_some_iff_holds hd).2 hin
  obtain ⟨rfl, hW, rfl⟩ | ⟨rfl, hWinv, rfl⟩ := hi
  · exact exec_commitBlock_effect he (runCipher_of_checks he hk hread hout (hasWords_of_le hW))
  · exact exec_commitBlock_effect he (runCipher_of_checks he hk hread hout (hasWords_of_le hWinv))

/-! ### An instance without a key -/

section unkeyed
variable {s : State} {e : Engine}

/-- A cipher on an instance without a key looks at no buffer (R201, R216). -/
theorem runCipher_of_unkeyed (sched : KeyState → List Word) (cipher : KeyState → Octets 16 → Octets 16) (a b : Nat)
    (he : s.engine? = some e) (hkey : e.key = none) :
    runCipher sched cipher a b s = .next (s.raiseStatus .notKeyed) := by
  simp only [runCipher, he, hkey]

/-- KEYLEN on an instance without a key has no length to report (R230). -/
theorem execKeylen_of_unkeyed (he : s.engine? = some e) (hkey : e.key = none) :
    execKeylen s = .next (s.raiseStatus .notKeyed) := by
  simp only [execKeylen, he, hkey]

end unkeyed

/-- Settles O30: each of the three finds no key and only raises `NotKeyed`. -/
theorem notKeyedAnswered : Obligations.NotKeyedAnswered := by
  intro s e a b he hkeyed i hi
  have hkey : e.key = none := Option.isNone_iff_eq_none.1 (Option.isSome_eq_false_iff.1 hkeyed)
  have h : exec i s = .next (s.raiseStatus .notKeyed) := by
    obtain rfl | rfl | rfl := hi
    · exact runCipher_of_unkeyed KeyState.W encryptBlock a b he hkey
    · exact runCipher_of_unkeyed KeyState.Winv decryptBlock a b he hkey
    · exact execKeylen_of_unkeyed he hkey
  exact ⟨_, h, rfl, rfl, rfl, exec_sameSurroundings h⟩

end Sys2Proof.Machine

/-! What the decryption family adds: the rounds of DECRYPT one by one, in descending order (spec/45_decrypt.md). -/

namespace Sys2Proof.Machine

/-! ### The rounds of DECRYPT -/

/-- The state of DECRYPT after the round that uses the words `Winv[4r..4r+3]`, for `r` from Nr, which is the spec's round
0, down to 1 (R218, R219). -/
def decryptState (k : KeyState) (block : Octets 16) (r : Nat) : Columns :=
  if r < k.variant.nr then decRound k.Winv r (decryptState k block (r + 1))
  else addRoundKeys k.Winv k.variant.nr (loadColumns block)
termination_by k.variant.nr - r

section decryptState
variable (k : KeyState) (block : Octets 16) (c : Fin 4)

theorem decryptState_of_lt {r : Nat} (h : r < k.variant.nr) :
    decryptState k block r = decRound k.Winv r (decryptState k block (r + 1)) := by
  rw [decryptState, if_pos h]

theorem decryptState_nr :
    decryptState k block k.variant.nr = addRoundKeys k.Winv k.variant.nr (loadColumns block) := by
  rw [decryptState, if_neg (Nat.lt_irrefl _)]

/-- Round 0 adds the last words of the schedule to the loaded block (R217, R218). -/
theorem decryptState_nr_get : (decryptState k block k.variant.nr).get c =
    loadWord block c (by omega) ^^^ schedWord k.Winv (4 * k.variant.nr + c) := by
  rw [decryptState_nr, addRoundKeys, Columns.ofFn_get, addRoundKey, loadColumns_get]

/-- A middle round takes each column from the state that the round above it left (R219). -/
theorem decryptState_get_of_lt {r : Nat} (h : r < k.variant.nr) : (decryptState k block r).get c =
    invMixColShiftRow c (decryptState k block (r + 1)) ^^^ schedWord k.Winv (4 * r + c) := by
  rw [decryptState_of_lt k block h, decRound, Columns.ofFn_get]

/-- The rounds `n` down to 1 lead from the state that round `n + 1` left to the state before the final round (R219). -/
theorem decRounds_decryptState {n : Nat} (h : n < k.variant.nr) :
    decRounds k.Winv n (decryptState k block (n + 1)) = decryptState k block 1 := by
  induction n with
  | zero => rfl
  | succ n ih => rw [decRounds, ← decryptState_of_lt k block h, ih (Nat.lt_of_succ_lt h)]

/-- DECRYPT on columns is its final round on the state that round 1 left (R218 to R220). -/
theorem decryptColumns_loadColumns :
    decryptColumns k (loadColumns block) = decFinal k.Winv (decryptState k block 1) := by
  have hpos := k.variant.nr_pos
  have hrounds := decRounds_decryptState k block (Nat.sub_one_lt_of_lt hpos)
  rw [Nat.sub_one_add_one_eq_of_pos hpos, decryptState_nr] at hrounds
  rw [decryptColumns, hrounds]

end decryptState

/-- The final round takes each column with the inverse S-box alone and the first words of the schedule (R220). -/
theorem decFinal_get (Winv : List Word) (s : Columns) (c : Fin 4) :
    (decFinal Winv s).get c = invSubBytesShiftRows c s ^^^ schedWord Winv c := by
  rw [decFinal, Columns.ofFn_get]

/-- Settles O23: the states are those of `decryptState`, and the last one is the final round on the state 1. -/
theorem decryptRounds : Obligations.DecryptRounds := by
  intro k block
  refine ⟨decryptState k block, decFinal k.Winv (decryptState k block 1), decryptState_nr_get k block,
    fun r _ hr c => ?_, decFinal_get k.Winv _, fun c j => ?_⟩
  · exact decryptState_get_of_lt k block c (Nat.lt_of_le_pred k.variant.nr_pos hr)
  · rw [decryptBlock, decryptColumns_loadColumns, storeColumns_column]

end Sys2Proof.Machine

/-! What the query family adds: KEYLEN on an instance with a key and BLKLEN on any, and KEYLEN after a SETKEY
(spec/46_queries_backend.md). -/

namespace Sys2Proof.Machine

section queries
variable {s : State} {e : Engine}

/-- KEYLEN on an instance with a key reports the key length of its variant (R230). -/
theorem execKeylen_of_key {k : KeyState} (he : s.engine? = some e) (hkey : e.key = some k) :
    execKeylen s = .next (s.respond .ok k.variant.keyLengthValue) := by
  simp only [execKeylen, he, hkey]

/-- BLKLEN does not look at the key (R231). -/
theorem execBlklen_of_engine (he : s.engine? = some e) : execBlklen s = .next (s.respond .ok blockLengthValue) := by
  simp only [execBlklen, he]

end queries

/-- Settles O33: with or without a key KEYLEN only adds its response, whose value is that of the variant. -/
theorem keylenAnswers : Obligations.KeylenAnswers := by
  refine ⟨decode_keylenWord 0 0, fun s e he => ?_⟩
  cases hkey : e.key with
  | none =>
    have h : exec .keylen s = .next (s.raiseStatus .notKeyed) := execKeylen_of_unkeyed he hkey
    exact ⟨_, h, rfl, rfl, rfl, exec_sameSurroundings h, fun _ => rfl, nofun⟩
  | some k =>
    have h : exec .keylen s = .next (s.respond .ok k.variant.keyLengthValue) := execKeylen_of_key he hkey
    have value {v : Variant} (hv : k.variant = v) :
        s.Answers (s.respond .ok k.variant.keyLengthValue) .ok v.keyLengthValue := hv ▸ rfl
    refine ⟨_, h, rfl, rfl, rfl, exec_sameSurroundings h, nofun, fun k' hk' => ?_⟩
    cases hk'
    exact ⟨value, value, value⟩

/-- Settles O34: BLKLEN only adds its response, of the one constant. -/
theorem blklenAnswers : Obligations.BlklenAnswers := by
  refine ⟨decode_blklenWord 0 0, fun s e he => ?_⟩
  have h : exec .blklen s = .next (s.respond .ok blockLengthValue) := execBlklen_of_engine he
  exact ⟨_, h, rfl, rfl, rfl, exec_sameSurroundings h, rfl⟩

/-- Settles O35: a SETKEY that answers OK has committed a key of the variant that its length selects, and the value
KEYLEN reports for that variant is the length. -/
theorem keylenReportsLastKey : Obligations.KeylenReportsLastKey := by
  intro s t klen keyAddr h hok
  obtain ⟨e, v, key, hv, -, he, rfl⟩ := exec_setkey_commit_of_ok h hok
  have hlen : v.keyLengthValue = klen := (keyLength_of_variantOfKeyLength hv).2
  exact ⟨_, execKeylen_of_key (State.engine?_commitKey he _) rfl, hlen ▸ rfl⟩

end Sys2Proof.Machine

/-! What the family of exceptions, reset and hazards adds: the reset of an instance, that no legal action of the host
stops the machine, which commands answer which fault, a forbidden overlap, disturbed buffers, and the source's known
answers (spec/60_exceptions.md, spec/70_reset_and_hazards.md, spec/95_test_vectors.md). -/

namespace Sys2Proof.Machine

/-! ### The reset of an instance -/

section runReset
variable {inst : Nat} {s : State} (hinst : inst < s.engines.length)
include hinst

/-- A reset of an instance with a command in flight stops the machine (R280). -/
theorem runReset_of_busy (hbusy : s.busy inst = true) : runReset inst s = .fault .resetDuringCommand := by
  simp only [runReset, State.hasInstance, hinst, decide_true, hbusy, if_true]

/-- A reset between commands replaces the instance by one in its reset state (R280, R281). -/
theorem runReset_of_not_busy (hbusy : s.busy inst = false) :
    runReset inst s = .next (State.spendFree { s with engines := s.engines.set inst (Engine.resetAt s.freeIdx) }) := by
  simp only [runReset, State.hasInstance, hinst, decide_true, hbusy, if_true, Bool.false_eq_true, if_false]

end runReset

/-- Settles O11: the instance that takes the place of the one reset has no key and backend `software`. -/
theorem resetEventBetweenCommands : Obligations.ResetEventBetweenCommands := by
  intro s inst rest hqueue hinst
  have hstep : step s = runReset inst { s with queue := rest } := step_of_queue_cons hqueue
  rw [hstep]
  refine ⟨runReset_of_busy (s := { s with queue := rest }) hinst, fun hbusy => ⟨_, Engine.resetAt s.freeIdx,
    runReset_of_not_busy (s := { s with queue := rest }) hinst hbusy, ?_, rfl, rfl, fun n hn => ?_, rfl, rfl, rfl⟩⟩
  · exact List.getElem?_set_self hinst
  · exact List.getElem?_set_ne (Ne.symm hn)

/-! ### No legal action stops the machine -/

/-- Settles O45: the schedules of an instance that meets the invariant have all the words a cipher reads
(`exec_completes`). -/
theorem commandsComplete : Obligations.CommandsComplete := fun _ i => exec_completes i

theorem runCommand_completes {inst : Nat} (c : Command) {s : State} (hes : ∀ e ∈ s.engines, e.Inv)
    (hinst : inst < s.engines.length) : ∃ t, runCommand inst c s = .next t := by
  obtain ⟨hno, -⟩ | ⟨-, ⟨err, -, h⟩ | ⟨i, -, ⟨-, h⟩ | ⟨-, h⟩⟩⟩ := runCommand_cases inst c s
  · exact absurd hinst (Nat.not_lt_of_le hno)
  · exact ⟨_, h⟩
  · exact ⟨_, h⟩
  · rw [h]
    exact exec_completes i hes hinst

theorem runIssue_completes {inst : Nat} (c : Command) {s : State} (hinst : inst < s.engines.length) :
    ∃ t, runIssue inst c s = .next t := by
  obtain ⟨hno, -⟩ | ⟨-, ⟨err, -, h⟩ | ⟨i, -, ⟨-, h⟩ | ⟨-, h⟩⟩⟩ := runIssue_cases inst c s
  · exact absurd hinst (Nat.not_lt_of_le hno)
  · exact ⟨_, h⟩
  · exact ⟨_, h⟩
  · exact ⟨_, h⟩

theorem runComplete_completes {k : Nat} {s : State} (hs : s.Inv) (hk : k < s.inFlight.length) :
    ∃ t, runComplete k s = .next t := by
  obtain ⟨hno, -⟩ | ⟨f, hf, h⟩ := runComplete_cases k s
  · exact absurd hk (Nat.not_lt_of_le hno)
  · rw [h]
    exact exec_completes f.instr hs.engines (hs.inFlight f (List.mem_of_getElem? hf))

/-- What a host of the spec can do has a next state (R259, R296). -/
theorem runEvent_completes {ev : HostEvent} {s : State} (hs : s.Inv) (hlegal : ev.Legal s) :
    ∃ t, runEvent ev s = .next t := by
  cases ev with
  | command inst c => exact runCommand_completes c hs.engines hlegal
  | issue inst c => exact runIssue_completes c hlegal
  | complete k => exact runComplete_completes hs hlegal
  | resetInst inst => exact ⟨_, runReset_of_not_busy hlegal.1 hlegal.2⟩
  | hostStore a v => exact ⟨_, runHostStore_of_lt hlegal v⟩

/-- Settles O44: an idle step keeps the state, and every legal action has a next state, whatever commands it runs. -/
theorem legalHostNeverStops : Obligations.LegalHostNeverStops := by
  intro s hs hlegal
  cases hqueue : s.queue with
  | nil => exact ⟨s, step_of_queue_nil hqueue⟩
  | cons ev rest =>
    rw [State.Safe, step_of_queue_cons hqueue]
    exact runEvent_completes (hs.withQueue rest) (hlegal ev rest hqueue)

/-! ### The faults of a command -/

/-- Settles O31: one octet that may not be accessed keeps its buffer from being accessible, and the command then only
raises `BufferFault`. -/
theorem cipherBufferFault : Obligations.CipherBufferFault := by
  intro s e a b j he hkeyed hj hoctet i hi
  have hbuf : ¬ (s.bufferReadable a 16 ∧ s.bufferWritable b 16) := fun ⟨hr, hw⟩ =>
    hoctet.elim (fun h => Bool.false_ne_true (h.symm.trans (hr ⟨j, hj⟩)))
      fun h => Bool.false_ne_true (h.symm.trans (hw ⟨j, hj⟩))
  obtain ⟨sched, cipher, hexec⟩ := exec_eq_runCipher hi
  have h : exec i s = .next (s.raiseStatus .bufferFault) :=
    (hexec s).trans (runCipher_of_inaccessible he hkeyed hbuf)
  exact ⟨_, h, rfl, rfl, rfl, exec_sameSurroundings h⟩

/-- SETKEY of a legal length reads its key buffer (R181). -/
theorem Instr.readsAt_setkey {klen : BitVec 8} {v : Variant} (hv : variantOfKeyLength klen = some v) (keyAddr : Nat)
    (j : Fin v.keyLength) : Instr.ReadsAt (.setkey klen keyAddr) (keyAddr + j) := by
  obtain ⟨hlen, -⟩ := keyLength_of_variantOfKeyLength hv
  refine ⟨variantOfKeyLength_isSome.1 (by rw [hv]; rfl), Nat.le_add_right _ _, ?_⟩
  rw [hlen]
  exact Nat.add_lt_add_left j.isLt keyAddr

section cipher
variable {i : Instr} {a b : Nat} (hi : i = .encrypt a b ∨ i = .decrypt a b)
include hi

/-- ENCRYPT and DECRYPT read their input block (R72). -/
theorem Instr.readsAt_cipher (j : Fin 16) : Instr.ReadsAt i (a + j) := by
  obtain rfl | rfl := hi <;> exact ⟨Nat.le_add_right _ _, Nat.add_lt_add_left j.isLt a⟩

/-- ENCRYPT and DECRYPT write their output block (R72, R78). -/
theorem Instr.writesAt_cipher (j : Fin 16) : Instr.WritesAt i (b + j) := by
  obtain rfl | rfl := hi <;> exact ⟨Nat.le_add_right _ _, Nat.add_lt_add_left j.isLt b⟩

end cipher

/-- Settles O48: `NotKeyed` needs an instance without a key, and `BufferFault` an octet that may not be accessed. -/
theorem onlyInvalidKeyLength : Obligations.OnlyInvalidKeyLength := by
  intro s t e i st value he hhost hread hwrite h hans
  obtain ⟨e', he', hcases⟩ := exec_next_cases h
  obtain rfl : e = e' := Option.some.inj (he.symm.trans he')
  have status {st' : Status} {v' : BitVec 8} (hans' : s.Answers t st' v') : st = st' := (hans.unique hans').1
  obtain ⟨hblk, hset, hkey, -⟩ | ⟨a, b, k, hi, -, hbuf, -⟩ |
    ⟨klen, a, rfl, ⟨-, rfl⟩ | ⟨v, hv, ⟨hbuf, -⟩ | ⟨key, -, rfl⟩⟩⟩ |
    ⟨a, b, k, block, -, -, -, ⟨-, -, rfl⟩ | ⟨-, -, rfl⟩⟩ | ⟨k, -, -, rfl⟩ | ⟨-, rfl⟩ := hcases
  · simp [hblk, hset, Engine.keyed, hkey] at hhost
  · exact absurd ⟨fun j => hread _ (Instr.readsAt_cipher hi j), fun j => hwrite _ (Instr.writesAt_cipher hi j)⟩ hbuf
  · exact .inr (status (v' := 0) rfl)
  · exact absurd (fun j => hread _ (Instr.readsAt_setkey hv a j)) (State.readBuffer_eq_none.1 hbuf)
  · exact .inl (status (v' := 0) rfl)
  · exact .inl (status (v' := 0) rfl)
  · exact .inl (status (v' := 0) rfl)
  · exact .inl (status (v' := k.variant.keyLengthValue) rfl)
  · exact .inl (status (v' := blockLengthValue) rfl)

/-! ### Commands that are answered at the port -/

section port
variable {s : State} {inst : Nat} {c : Command} {rest : List HostEvent}

/-- An illegal word is answered at once, waited for or not (R98, R254). -/
theorem step_of_illegalWord {err : DecodeError}
    (hqueue : s.queue = .command inst c :: rest ∨ s.queue = .issue inst c :: rest) (hinst : inst < s.engines.length)
    (hdec : decode c = .error err) :
    step s = .next ((State.select { s with queue := rest } inst false).raiseStatus .illegalCommand) := by
  obtain hqueue | hqueue := hqueue <;> rw [step_of_queue_cons hqueue]
  · simp only [runEvent, runCommand, State.hasInstance, hinst, decide_true, if_true, hdec]
  · simp only [runEvent, runIssue, State.hasInstance, hinst, decide_true, if_true, hdec]

/-- A command that would put a SETKEY and another command together ends them all at once, waited for or not (R255,
R257). -/
theorem step_of_rekeyClash {i : Instr}
    (hqueue : s.queue = .command inst c :: rest ∨ s.queue = .issue inst c :: rest) (hinst : inst < s.engines.length)
    (hdec : decode c = .ok i) (hclash : s.rekeyClash inst i = true) :
    step s = .next (State.abortRekey { s with queue := rest } inst) := by
  have hclash' : State.rekeyClash { s with queue := rest } inst i = true := hclash
  obtain hqueue | hqueue := hqueue <;> rw [step_of_queue_cons hqueue]
  · simp only [runEvent, runCommand, State.hasInstance, hinst, decide_true, if_true, hdec, hclash']
  · simp only [runEvent, runIssue, State.hasInstance, hinst, decide_true, if_true, hdec, hclash']

end port

/-- Settles O9: the step selects the instance and raises `IllegalCommand`, nothing more. -/
theorem illegalWordAnswered : Obligations.IllegalWordAnswered := fun _ _ _ _ _ hqueue hinst hdec =>
  ⟨_, step_of_illegalWord hqueue hinst hdec, rfl, rfl, rfl, rfl, rfl, rfl, rfl, rfl⟩

/-- A clash of R82 is a command in flight on the instance, it or the new one being a SETKEY. -/
theorem State.rekeyClash_iff {s : State} {inst : Nat} {i : Instr} : s.rekeyClash inst i = true ↔
    ∃ f ∈ s.inFlight, f.inst = inst ∧ (Instr.isSetkey i = true ∨ Instr.isSetkey f.instr = true) := by
  simp only [State.rekeyClash, List.any_eq_true, Bool.and_eq_true, Bool.or_eq_true, decide_eq_true_eq]

/-- `ConcurrentRekey` unkeys the instance and frees its working registers (R255). -/
theorem State.getElem?_abortRekey_engines {s : State} {inst : Nat} {e : Engine} (he : s.engines[inst]? = some e) :
    (s.abortRekey inst).engines[inst]? = some (((e.unkey).releaseCipher s.freeIdx).releaseTemp s.freeIdx) := by
  rw [State.abortRekey_engines, List.getElem?_modify_eq, he]
  rfl

/-- Settles O49: the step is `State.abortRekey`, which takes the commands of the one instance away. -/
theorem concurrentRekeyUnkeys : Obligations.ConcurrentRekeyUnkeys := by
  intro s inst e c i rest hqueue he hdec hclash
  obtain ⟨hinst, -⟩ := List.getElem?_eq_some_iff.1 he
  refine ⟨_, _, step_of_rekeyClash hqueue hinst hdec (State.rekeyClash_iff.2 hclash),
    State.getElem?_abortRekey_engines he, rfl, rfl, rfl, List.length_modify .., fun n hn => ?_, rfl, rfl, rfl, rfl, rfl,
    rfl, ?_, State.abortRekey_responses _ inst⟩
  · exact List.getElem?_modify_ne _ _ (Ne.symm hn)
  · simp only [State.abortRekey_inFlight, decide_not]

/-! ### Disturbed buffers -/

/-- A command whose buffers another agent touched reads free values (R288, U6). -/
theorem State.readBuffer_of_disturbed {s : State} {a n : Nat} (hd : s.disturbed = true) (h : s.bufferReadable a n) :
    s.readBuffer a n = some fun j : Fin n => Config.freeOctet (s.freeIdx + j) :=
  State.readBuffer_eq_some.2 ⟨h, funext fun _ => (if_pos hd).symm⟩

/-- Settles O52: the command that reads the free values commits what it makes of them. -/
theorem disturbedOctetsFree : Obligations.DisturbedOctetsFree := by
  intro s e a b he hd
  refine ⟨fun k i result hk hin hout hi => ?_, fun klen v hlen hin => ?_⟩
  · have hread := State.readBuffer_of_disturbed hd hin
    have h : exec i s = .next (s.commitBlock e b result) := by
      obtain ⟨rfl, hW, rfl⟩ | ⟨rfl, hWinv, rfl⟩ := hi
      · exact runCipher_of_checks he hk hread hout (hasWords_of_le hW)
      · exact runCipher_of_checks he hk hread hout (hasWords_of_le hWinv)
    exact ⟨_, h, rfl, State.get?_commitBlock_mem e b result⟩
  · have hread := State.readBuffer_of_disturbed hd hin
    exact ⟨_, _, execSetkey_of_key he (variantOfKeyLength_of_toNat hlen) hread, rfl, State.engine?_commitKey he _, rfl⟩

/-! ### Known answers -/

/-- Decryption gives back what was encrypted to the block (R209). -/
theorem decryptBlock_of_encryptBlock {v : Variant} {key : Octets v.keyLength} {p c : Octets 16}
    (h : encryptBlock (expandKey v key) p = c) : decryptBlock (expandKey v key) c = p :=
  h ▸ decryptBlock_encryptBlock v key p

/-- Settles O26: the three encryptions are evaluated, and the decryptions follow from them. -/
theorem knownAnswers : Obligations.KnownAnswers := by
  refine ⟨?aes128, ?aes192, ?aes256, decryptBlock_of_encryptBlock ?aes128, decryptBlock_of_encryptBlock ?aes192,
    decryptBlock_of_encryptBlock ?aes256⟩
  case aes128 => decide +kernel
  case aes192 => decide +kernel
  case aes256 => decide +kernel

end Sys2Proof.Machine
